-- ==== Sys2Proof/Word.lean ====
section
/-! DEFINITION. The two word types of the block: the 64-bit value word and the 67-bit request word. -/

namespace Sys2Proof

/-- A 64-bit word, which is also a binary64 value: the block "takes and returns bit patterns" (00_scope.md R10). -/
abbrev Word := BitVec 64

/-- The request word `op ‖ a`: the operation select in bits 66:64, the operand in bits 63:0 (30_encoding.md R56). -/
abbrev RequestWord := BitVec 67

end Sys2Proof
end

