-- ==== Sys2Proof/Config.lean ====
section
/-! DEFINITION. What a build of the block fixes: its parameters (00_scope.md R3, section 4), and the values the spec
leaves open (opaque, so that no proof can see one). The derived constants are in Machine/Constants.lean. -/

namespace Sys2Proof

/-- The two instances of the configuration function `PRE_ROUND` (41_construct.md R82: "a model may take it as an
argument and instantiate it with `PRE_ROUND_32` or `PRE_ROUND_M`"). -/
inductive PreRound where
  /-- `PRE_ROUND_32`: through IEEE 754 binary32 (R81) -/
  | binary32
  /-- `PRE_ROUND_M`: to `MANT_BITS` fraction bits at the operand's own exponent (R82) -/
  | mantBits
deriving DecidableEq, Repr

/-- The build-time parameters, "the system's only configuration surface" (00_scope.md R3), with the named parameters
that section 4 of 00_scope.md adds. Log entry 1. -/
structure Config where
  /-- `EXP_BITS` (R3) -/
  expBits : Nat
  /-- `MANT_BITS` (R3) -/
  mantBits : Nat
  /-- `MAXVAL_EXP_FIELD` (10_state.md R22, decision D5) -/
  maxvalExpField : Nat
  /-- `MAXVAL_FRAC_FIELD` (10_state.md R22, decision D5) -/
  maxvalFracField : Nat
  /-- `PRE_ROUND` (41_construct.md R81, R82, decision D7) -/
  preRound : PreRound
  /-- `INT_WIDTH` (41_construct.md R85, decision D10) -/
  intWidth : Nat
deriving DecidableEq, Repr

/-- The configuration that the spec's defaults give for a pair of widths: the first reading of `maxVal` (R22),
`PRE_ROUND_32` for 8/23 (R81) and `PRE_ROUND_M` for every other pair (R82), `INT_WIDTH = 32` (R85). -/
def Config.standard (expBits mantBits : Nat) : Config where
  expBits := expBits
  mantBits := mantBits
  maxvalExpField := 2 ^ expBits - 2
  maxvalFracField := 2 ^ mantBits - 1
  preRound := if expBits = 8 ∧ mantBits = 23 then .binary32 else .mantBits
  intWidth := 32

/-- The default build, 8/23 (R3; 10_state.md R27). Log entry 2. -/
def Config.build823 : Config where
  expBits := 8
  mantBits := 23
  maxvalExpField := 254
  maxvalFracField := 0x7FFFFF
  preRound := .binary32
  intWidth := 32

/-- FREE VALUE: bit 0 of `c_frac_hub` for zero, one and infinity, "unspecified" (44_extract_format.md R121, U5); a
function of the configuration and the operand, as R20 and R42 make every result. Log entry 5. -/
opaque Config.freeHubBit : Config → Word → Bool

/-- FREE VALUE: the compact exponent of a word whose rebased exponent is out of range, "unspecified"
(44_extract_format.md R128, U6); its reader cuts it to `EXP_BITS` bits. Log entry 6. -/
opaque Config.freeCExp : Config → Word → Nat

/-- The native operations of the arithmetic contract (43_arithmetic.md R114, decision D21): "six total functions on
64-bit words". A value of this type is an argument of every contract operation, never a part of State. -/
structure Arith where
  add64 : Word → Word → Word
  sub64 : Word → Word → Word
  mul64 : Word → Word → Word
  div64 : Word → Word → Word
  sqrt64 : Word → Word
  fma64 : Word → Word → Word → Word

/-- Which native operation generated a NaN. -/
inductive NativeOp where
  | add | sub | mul | div | sqrt | fma
deriving DecidableEq, Repr

/-- FREE VALUE: the word of a NaN that native arithmetic generates ("a model draws it", 93_implementation_defined.md
U4); its reader forces the NaN pattern, so the sign and the payload stay free. Log entry 9. -/
opaque Config.freeNaN : NativeOp → Word → Word → Word → Word

end Sys2Proof
end

