-- ==== Sys2Proof/Syntax.lean ====
section
/-! DEFINITION. The operations of the block (30_encoding.md R56; spec/opcode_table.json), one constructor a row. -/

namespace Sys2Proof

/-- The operation select `op`, 0 to 7 (R56). -/
inductive Opcode where
  | qnt | cvtD | cvtS | cvtW | dec | xbf | enc | rdD
deriving DecidableEq, Repr

/-- A request: an operation with its 64-bit operand `a` (R56). The operand is the whole word: bits above the
operation's operand width are carried here and ignored by the operation (R57). -/
inductive Instr where
  /-- op 0, `QNT`: `quantize` (42_quantize.md R101) -/
  | qnt (a : Word)
  /-- op 1, `CVT.D`: construction from binary64 (41_construct.md R80) -/
  | cvtD (a : Word)
  /-- op 2, `CVT.S`: construction from binary32 (R84) -/
  | cvtS (a : Word)
  /-- op 3, `CVT.W`: construction from an integer (R85) -/
  | cvtW (a : Word)
  /-- op 4, `DEC`: construction from a compact code (R86) -/
  | dec (a : Word)
  /-- op 5, `XBF`: bit-field extraction (44_extract_format.md R120) -/
  | xbf (a : Word)
  /-- op 6, `ENC`: packing (R122) -/
  | enc (a : Word)
  /-- op 7, `RD.D`: read-back (R123) -/
  | rdD (a : Word)
deriving DecidableEq, Repr

end Sys2Proof
end

