-- ==== Sys2Proof/WellFormed.lean ====
section
/-! DEFINITION. What is well formed: a configuration (00_scope.md R8 and the ranges of its named parameters), a request
word (67 bits) and an instruction (every operand word is admitted, so every instruction is). -/

namespace Sys2Proof

/-- `2 <= EXP_BITS <= 10` (00_scope.md R8). -/
abbrev Config.expBitsLegal (c : Config) : Prop := 2 ≤ c.expBits ∧ c.expBits ≤ 10

/-- `1 <= MANT_BITS <= 51` (00_scope.md R8). -/
abbrev Config.mantBitsLegal (c : Config) : Prop := 1 ≤ c.mantBits ∧ c.mantBits ≤ 51

/-- `MAXVAL_EXP_FIELD` fits its field and is not below the exponent field of one, `MAXVAL_FRAC_FIELD` fits its field
(10_state.md R22). DESIGN CHOICE, safe: log entry 1. -/
abbrev Config.maxvalFieldsLegal (c : Config) : Prop :=
  2 ^ (c.expBits - 1) ≤ c.maxvalExpField ∧ c.maxvalExpField < 2 ^ c.expBits ∧ c.maxvalFracField < 2 ^ c.mantBits

/-- The pattern of `maxVal` is "distinguishable from the reserved all-ones "infinity" encoding" (10_state.md R22). -/
abbrev Config.maxvalNotInfinity (c : Config) : Prop :=
  ¬ (c.maxvalExpField = 2 ^ c.expBits - 1 ∧ c.maxvalFracField = 2 ^ c.mantBits - 1)

/-- `PRE_ROUND_32` is the rounding of the 8/23 configuration only (41_construct.md R81, R82). Log entry 1. -/
abbrev Config.preRoundLegal (c : Config) : Prop := c.preRound = .binary32 → c.expBits = 8 ∧ c.mantBits = 23

/-- `INT_WIDTH` is legal from 2 to 53 (41_construct.md R85). -/
abbrev Config.intWidthLegal (c : Config) : Prop := 2 ≤ c.intWidth ∧ c.intWidth ≤ 53

/-- A configuration the block can be built in; "a model refuses other configurations" (decision D4). -/
abbrev Config.Legal (c : Config) : Prop :=
  c.expBitsLegal ∧ c.mantBitsLegal ∧ c.maxvalFieldsLegal ∧ c.maxvalNotInfinity ∧ c.preRoundLegal ∧ c.intWidthLegal

/-- The bits of a request word: a request has 67 of them (30_encoding.md R56). -/
abbrev requestFits (w : Nat) : Prop := w < 2 ^ 67

/-- Every instruction is well formed: "there is no reserved, illegal or hint operation code" (30_encoding.md R56) and no
operand is illegal (R59). -/
def Instr.wf : Instr → Bool
  | .qnt _ => true
  | .cvtD _ => true
  | .cvtS _ => true
  | .cvtW _ => true
  | .dec _ => true
  | .xbf _ => true
  | .enc _ => true
  | .rdD _ => true

end Sys2Proof
end

