-- ==== Sys2Proof/Decode.lean ====
section
/-! DEFINITION. The decoder of request words (30_encoding.md R56; spec/opcode_table.json), total, and the encoder beside
it, both written from the table's rows. -/

namespace Sys2Proof

/-- Why a number is no request. -/
inductive DecodeReject where
  /-- The number has a bit at position 67 or above; safe, since the request port is 67 bits wide (R56). -/
  | widerThanRequest
deriving DecidableEq, Repr

/-- The operand field `a`, bits 63:0 of the request (R56). -/
def operandField (w : RequestWord) : Word := w.extractLsb' 0 64

/-- The request read by its three select bits 66, 65, 64: the eight rows of the opcode table (R56). -/
def decodeRequest (w : RequestWord) : Instr :=
  match w.getLsbD 66, w.getLsbD 65, w.getLsbD 64 with
  | false, false, false => .qnt (operandField w)
  | false, false, true => .cvtD (operandField w)
  | false, true, false => .cvtS (operandField w)
  | false, true, true => .cvtW (operandField w)
  | true, false, false => .dec (operandField w)
  | true, false, true => .xbf (operandField w)
  | true, true, false => .enc (operandField w)
  | true, true, true => .rdD (operandField w)

/-- The decoder on any number: a number wider than a request is rejected by name. -/
def decode (w : Nat) : Except DecodeReject Instr :=
  if requestFits w then .ok (decodeRequest (BitVec.ofNat 67 w)) else .error .widerThanRequest

/-- The operation code of each operation (R56). -/
def Opcode.code : Opcode → BitVec 3
  | .qnt => 0
  | .cvtD => 1
  | .cvtS => 2
  | .cvtW => 3
  | .dec => 4
  | .xbf => 5
  | .enc => 6
  | .rdD => 7

/-- The mnemonic of each operation (R56, R58). -/
def Opcode.mnemonic : Opcode → String
  | .qnt => "QNT"
  | .cvtD => "CVT.D"
  | .cvtS => "CVT.S"
  | .cvtW => "CVT.W"
  | .dec => "DEC"
  | .xbf => "XBF"
  | .enc => "ENC"
  | .rdD => "RD.D"

def Instr.opcode : Instr → Opcode
  | .qnt _ => .qnt
  | .cvtD _ => .cvtD
  | .cvtS _ => .cvtS
  | .cvtW _ => .cvtW
  | .dec _ => .dec
  | .xbf _ => .xbf
  | .enc _ => .enc
  | .rdD _ => .rdD

def Instr.operand : Instr → Word
  | .qnt a => a
  | .cvtD a => a
  | .cvtS a => a
  | .cvtW a => a
  | .dec a => a
  | .xbf a => a
  | .enc a => a
  | .rdD a => a

/-- The request `MNEMONIC src` (R58): an operation with an operand word. -/
def Opcode.request (op : Opcode) (a : Word) : Instr :=
  match op with
  | .qnt => .qnt a
  | .cvtD => .cvtD a
  | .cvtS => .cvtS a
  | .cvtW => .cvtW a
  | .dec => .dec a
  | .xbf => .xbf a
  | .enc => .enc a
  | .rdD => .rdD a

/-- The request word `op ‖ a` of an instruction (R56). -/
def encode (i : Instr) : RequestWord := i.opcode.code ++ i.operand

/-- The instruction the decoder reads from the table's word. A request is not made of bytes (20_memory.md R41), so the
table's number is the request word; bits at and above `nbits` are zero. Log entry 8. -/
def decodeTableWord (nbits w : Nat) : Option Instr :=
  match decode (w % 2 ^ nbits) with
  | .ok i => some i
  | .error _ => none

end Sys2Proof
end

