-- ==== Sys2Proof/Machine/Bits.lean ====
section
/-! DEFINITION. The notation of 00_scope.md section 5: fields of words, concatenation of fields, the two named patterns. -/

namespace Sys2Proof.Machine

/-- `sign(d) = d[63]`. -/
def sign (d : Word) : BitVec 1 := d.extractLsb' 63 1

/-- `mag(d) = d[62:0]`, compared as an unsigned integer (R11). -/
def mag (d : Word) : BitVec 63 := d.extractLsb' 0 63

/-- `nexp(d) = d[62:52]`. -/
def nexp (d : Word) : BitVec 11 := d.extractLsb' 52 11

/-- `nfrac(d) = d[51:0]`. -/
def nfrac (d : Word) : BitVec 52 := d.extractLsb' 0 52

/-- The pattern of `+infinity`. -/
def PINF : Word := 0x7FF0000000000000

/-- The pattern of `+1.0`. -/
def ONE : Word := 0x3FF0000000000000

/-- `s ‖ m` of a sign bit and a 63-bit magnitude. -/
def ofSignMag (s : BitVec 1) (m : BitVec 63) : Word := s ++ m

/-- `s ‖ e ‖ f` of the three binary64 fields (30_encoding.md R50). -/
def ofFields (s : BitVec 1) (e : BitVec 11) (f : BitVec 52) : Word := s ++ e ++ f

/-- The signed infinity `s ‖ PINF[62:0]`. -/
def signedInf (s : BitVec 1) : Word := ofSignMag s (mag PINF)

/-- The signed zero `s ‖ 0[62:0]`. -/
def signedZero (s : BitVec 1) : Word := ofSignMag s 0

/-- The signed one `s ‖ ONE[62:0]`. -/
def signedOne (s : BitVec 1) : Word := ofSignMag s (mag ONE)

/-- `n[lo+len-1 : lo]`, the `len` bits of an unsigned integer from position `lo` up. -/
def slice (n lo len : Nat) : Nat := (n >>> lo) % 2 ^ len

/-- `hi ‖ lo` where `lo` is `len` bits wide. -/
def cat (hi lo len : Nat) : Nat := (hi <<< len) ||| lo

/-- `ones(k)`. -/
def ones (k : Nat) : Nat := 2 ^ k - 1

/-- The position of the highest set bit of a nonzero integer. -/
def highestBit (n : Nat) : Nat := Nat.log2 n

end Sys2Proof.Machine
end

