-- ==== Sys2Proof/Machine/Constants.lean ====
section
/-! DEFINITION. The derived constants, "hardwired functions of the two parameters" (10_state.md R24), and `GDEC`, through
which `lowestVal`, `maxVal` and `minVal` are defined (R151: none of them goes through `CVT.D` or `QNT`). -/

namespace Sys2Proof

/-- `SHIFT = 52 - MANT_BITS` (00_scope.md R4). -/
def Config.shift (c : Config) : Nat := 52 - c.mantBits

/-- `HUB_BIT = 1 << (SHIFT-1)` (R4). -/
def Config.hubBit (c : Config) : Word := 1#64 <<< (c.shift - 1)

/-- `CUSTOM_MAX_EXP = 2^EXP_BITS - 1` (R5). -/
def Config.customMaxExp (c : Config) : Nat := 2 ^ c.expBits - 1

/-- `CUSTOM_BIAS = 2^(EXP_BITS-1)` (R6, decision D3). -/
def Config.customBias (c : Config) : Nat := 2 ^ (c.expBits - 1)

/-- `BIAS_DIFF = 1023 - CUSTOM_BIAS` (R6). -/
def Config.biasDiff (c : Config) : Nat := 1023 - c.customBias

/-- `N = 1 + EXP_BITS + MANT_BITS` (R7). -/
def Config.codeBits (c : Config) : Nat := 1 + c.expBits + c.mantBits

/-- `GDEC(s, e, f) = s ‖ (e + BIAS_DIFF)[10:0] ‖ ((f << SHIFT) | HUB_BIT)[51:0]` (41_construct.md R87). -/
def Config.gdec (c : Config) (s : BitVec 1) (e f : Nat) : Word :=
  Machine.ofFields s (BitVec.ofNat 11 (e + c.biasDiff)) (BitVec.ofNat 52 ((f <<< c.shift) ||| c.hubBit.toNat))

/-- `lowestVal = GDEC(0, 0, 1)` (10_state.md R23). -/
def Config.lowestVal (c : Config) : Word := c.gdec 0 0 1

/-- `maxVal = GDEC(0, MAXVAL_EXP_FIELD, MAXVAL_FRAC_FIELD)` (10_state.md R22). -/
def Config.maxVal (c : Config) : Word := c.gdec 0 c.maxvalExpField c.maxvalFracField

/-- `minVal = GDEC(1, MAXVAL_EXP_FIELD, MAXVAL_FRAC_FIELD)` (10_state.md R22). -/
def Config.minVal (c : Config) : Word := c.gdec 1 c.maxvalExpField c.maxvalFracField

end Sys2Proof
end

