-- ==== Sys2Proof/Machine/Operands.lean ====
section
/-! DEFINITION. The operand forms of 30_encoding.md R57: how each operation reads its operand from the port word `a`.
"Bits of `a` above the operand are ignored by the operation." -/

namespace Sys2Proof.Machine

/-- A binary64 operand, or a hub value, occupies all of `a`. -/
def operand64 (a : Word) : Word := a

/-- A binary32 operand occupies `a[31:0]`. -/
def operand32 (a : Word) : BitVec 32 := a.extractLsb' 0 32

/-- A `CVT.W` integer occupies `a[INT_WIDTH-1:0]` in two's complement. -/
def operandInt (c : Config) (a : Word) : Int := (a.setWidth c.intWidth).toInt

/-- A compact code occupies `a[N-1:0]`. -/
def operandCode (c : Config) (a : Word) : Nat := slice a.toNat 0 c.codeBits

/-- `s = u[EXP_BITS+MANT_BITS]` of a compact code (30_encoding.md R52). -/
def codeSign (c : Config) (u : Nat) : BitVec 1 := BitVec.ofNat 1 (slice u (c.expBits + c.mantBits) 1)

/-- `e = u[EXP_BITS+MANT_BITS-1 : MANT_BITS]` (R52). -/
def codeExp (c : Config) (u : Nat) : Nat := slice u c.mantBits c.expBits

/-- `f = u[MANT_BITS-1 : 0]` (R52). -/
def codeFrac (c : Config) (u : Nat) : Nat := slice u 0 c.mantBits

/-- The code `s ‖ e ‖ f` (R52). -/
def packCode (c : Config) (s : BitVec 1) (e f : Nat) : Nat := cat (cat s.toNat e c.expBits) f c.mantBits

end Sys2Proof.Machine
end

