-- ==== Sys2Proof/Machine/State.lean ====
section
/-! DEFINITION. The state of the block: its build parameters and the words at its ports. It "holds no mutable state"
(10_state.md R20); the ports stand here because the host's step is a function of State alone. -/

namespace Sys2Proof.Machine

/-- The `BitFields` record (10_state.md R25). The last three widths depend on the configuration, so the fields are
numbers, and `State.Inv` (Safety.lean) says that they fit. -/
structure BitFields where
  /-- `sign`, 1 bit -/
  sign : BitVec 1
  /-- `native_exp`, 11 bits -/
  nativeExp : BitVec 11
  /-- `native_frac`, 52 bits -/
  nativeFrac : BitVec 52
  /-- `c_exp`, `EXP_BITS` bits -/
  cExp : Nat
  /-- `c_frac`, `MANT_BITS` bits -/
  cFrac : Nat
  /-- `c_frac_hub`, `MANT_BITS + 1` bits -/
  cFracHub : Nat
deriving DecidableEq, Repr

/-- The state: plain data. Log entries 1, 3 and 4. -/
structure State where
  /-- The build-time parameters (00_scope.md R3; 10_state.md section 3); no operation writes them (R24). -/
  config : Config
  /-- The request port `op ‖ a` (30_encoding.md R56). -/
  request : RequestWord
  /-- The response port `y` (R56). -/
  y : Word
  /-- The response port `bf`, "meaningful for `XBF`" (R56, decision D1): absent after every other operation. -/
  bf : Option BitFields
deriving DecidableEq, Repr

/-- The faults of a step: none. "No operation of the block raises an exception, trap or fault, for any operand"
(60_exceptions.md R140), so this type has no constructor. -/
inductive Fault where
deriving DecidableEq, Repr

/-- The refusals of a step. -/
inductive Refusal where
  /-- An instruction with no meaning yet, raised by an arm of `exec` only; safe. No arm raises it. -/
  | notModelled (mnemonic : String)
  /-- The configuration is outside the legal range of 00_scope.md R8 ("a model refuses other configurations", decision
  D4). Raised by `State.respond`, for every operation alike; safe. -/
  | illegalConfiguration
deriving DecidableEq, Repr

/-- The block after reset: the default build (10_state.md R27: "There is nothing to reset"), and at the ports the
request `QNT` of `+0` with its response. Log entries 2 and 3. -/
def State.reset : State where
  config := Config.build823
  request := 0
  y := 0
  bf := none

end Sys2Proof.Machine
end

