-- ==== Sys2Proof/Machine/Ops.lean ====
section
/-! DEFINITION. The named operations on State. The block has no register file and no memory (10_state.md R26,
20_memory.md R40), and takes no exception (60_exceptions.md R140): what a step does to State is to put a response at the
response ports. -/

namespace Sys2Proof.Machine

/-- Answer the request: the response word and, for `XBF`, the record at the response ports (30_encoding.md R56). The one
place that refuses an illegal configuration (00_scope.md R8, decision D4; log entry 1). -/
def State.respond (s : State) (y : Word) (bf : Option BitFields) : Host.Outcome State Fault Refusal :=
  if s.config.Legal then .next { s with y := y, bf := bf } else .refused .illegalConfiguration

/-- The client puts a request word on the request port (30_encoding.md R56). -/
def State.withRequest (s : State) (w : RequestWord) : State := { s with request := w }

end Sys2Proof.Machine
end

