-- ==== Sys2Proof/Machine/Rounding.lean ====
section
/-! DEFINITION. The snap (42_quantize.md R100) and the pre-rounding of construction (41_construct.md R81, R82). -/

namespace Sys2Proof.Machine

/-- `SNAP(d) = (d & ~(HUB_BIT - 1)) | HUB_BIT` (R100). -/
def snap (c : Config) (d : Word) : Word := (d &&& ~~~(c.hubBit - 1)) ||| c.hubBit

/-- `d[SHIFT-1:0] = HUB_BIT`: the word lies on the hub grid (10_state.md R21; R80 step 2). -/
abbrev onGrid (c : Config) (d : Word) : Prop := slice d.toNat 0 c.shift = c.hubBit.toNat

/-- Round to nearest, ties to even, of `n` to a multiple of `2^k`: `n >> k`, plus one when the discarded bits are above
half or at half with an odd quotient (R81). -/
def roundEvenShift (n k : Nat) : Nat :=
  let q := n >>> k
  let rem := n % 2 ^ k
  let half := 2 ^ (k - 1)
  if rem > half ∨ (rem = half ∧ q % 2 = 1) then q + 1 else q

/-- How many low significand bits the binary32 conversion discards in the binade of unbiased exponent `x` (R81). -/
def discardedBits (x : Int) : Nat := if -126 ≤ x then 29 else (-97 - x).toNat

/-- `PRE_ROUND_32(a)` (R81): conversion to binary32 by round-to-nearest-even with gradual underflow, widened back. -/
def preRound32 (a : Word) : Word :=
  let x : Int := (nexp a).toNat - 1023
  if x > 127 then signedInf (sign a)
  else
    let k := discardedBits x
    let sig := 2 ^ 52 + (nfrac a).toNat
    let sig' := roundEvenShift sig k <<< k
    let carried := sig' = 2 ^ 53
    let sig'' := if carried then 2 ^ 52 else sig'
    let x' := if carried then x + 1 else x
    if x' > 127 then signedInf (sign a)
    else ofFields (sign a) (BitVec.ofInt 11 (x' + 1023)) (BitVec.ofNat 52 (sig'' - 2 ^ 52))

/-- `PRE_ROUND_M(a)` (R82): round-to-nearest-even to `MANT_BITS` fraction bits, on the 63-bit magnitude. -/
def preRoundM (c : Config) (a : Word) : Word :=
  let low := (mag a).toNat % 2 ^ c.shift
  let base := (mag a).toNat - low
  let rounded :=
    if low > c.hubBit.toNat ∨ (low = c.hubBit.toNat ∧ a.getLsbD c.shift = true) then base + 2 ^ c.shift else base
  ofSignMag (sign a) (BitVec.ofNat 63 rounded)

/-- `PRE_ROUND(a)`: the instance the configuration names (R81, R82). -/
def preRound (c : Config) (a : Word) : Word :=
  match c.preRound with
  | .binary32 => preRound32 a
  | .mantBits => preRoundM c a

end Sys2Proof.Machine
end

