-- ==== Sys2Proof/Machine/SpecialCases.lean ====
section
/-! DEFINITION. The primitives that `QNT`, `CVT.D`, `CVT.S` and `CVT.W` share: `CLASS`, `SPECIAL`, `CLAMP`
(40_special_cases.md). -/

namespace Sys2Proof.Machine

/-- The six classes of R70. -/
inductive Class where
  | zero | inf | one | nan | tiny | general
deriving DecidableEq, Repr

/-- `CLASS(d)` (R70): the tests on `mag(d)`, in the rule's order. -/
def classOf (c : Config) (d : Word) : Class :=
  if mag d = 0 then .zero
  else if mag d = mag PINF then .inf
  else if mag d = mag ONE then .one
  else if mag d > mag PINF then .nan
  else if mag d < mag c.lowestVal then .tiny
  else .general

/-- `SPECIAL(d)`, the pair `(handled, r)`: pass-through (R71), NaN collapse (R72), underflow flush (R73), declined
(R74). -/
def special (c : Config) (d : Word) : Bool × Word :=
  match classOf c d with
  | .zero => (true, d)
  | .inf => (true, d)
  | .one => (true, d)
  | .nan => (true, signedInf (sign d))
  | .tiny => (true, signedZero (sign d))
  | .general => (false, d)

/-- `CLAMP(x)` (R75): strictly above `maxVal` in magnitude becomes the signed infinity. -/
def clamp (c : Config) (x : Word) : Word :=
  if mag x > mag c.maxVal then signedInf (sign x) else x

end Sys2Proof.Machine
end

