-- ==== Sys2Proof/Machine/Construction.lean ====
section
/-! DEFINITION. The constructions `CVT.D`, `CVT.S`, `CVT.W`, `DEC` (41_construct.md). -/

namespace Sys2Proof.Machine

/-- `CVT.D(a)` (R80): special handler; an operand on the grid as it is; else pre-round and force the hub bit, but an
infinite pre-rounded value at once (R83); the clamp last. -/
def constructD (c : Config) (a : Word) : Word :=
  match special c a with
  | (true, r) => r
  | (false, _) =>
    if onGrid c a then clamp c a
    else
      let p := preRound c a
      if mag p = mag PINF then p else clamp c (p ||| c.hubBit)

/-- `WIDEN(w)` (R84): the exact conversion of binary32 to binary64, a NaN's sign kept (decision D17). -/
def widen (w : BitVec 32) : Word :=
  let s : BitVec 1 := w.extractLsb' 31 1
  let e : Nat := (w.extractLsb' 23 8).toNat
  let f : Nat := (w.extractLsb' 0 23).toNat
  if e = 255 then ofFields s 0x7FF (BitVec.ofNat 52 (f <<< 29))
  else if e = 0 ∧ f = 0 then signedZero s
  else if e = 0 then
    let k := highestBit f
    ofFields s (BitVec.ofInt 11 ((k : Int) - 149 + 1023)) (BitVec.ofNat 52 ((f - 2 ^ k) <<< (52 - k)))
  else ofFields s (BitVec.ofInt 11 ((e : Int) - 127 + 1023)) (BitVec.ofNat 52 (f <<< 29))

/-- `I2D(i)` (R85): the exact conversion of an integer of at most 53 significant bits to binary64. -/
def i2d (i : Int) : Word :=
  if i = 0 then 0
  else
    let m := i.natAbs
    let k := highestBit m
    ofFields (if i < 0 then 1 else 0) (BitVec.ofNat 11 (1023 + k)) (BitVec.ofNat 52 ((m - 2 ^ k) <<< (52 - k)))

/-- `DEC` of a code (R86): the three reserved code points (30_encoding.md R53), else the general decoding. -/
def decodeCode (c : Config) (u : Nat) : Word :=
  let s := codeSign c u
  let e := codeExp c u
  let f := codeFrac c u
  if e = 0 ∧ f = 0 then signedZero s
  else if e = 2 ^ (c.expBits - 1) ∧ f = 0 then signedOne s
  else if e = ones c.expBits ∧ f = ones c.mantBits then signedInf s
  else c.gdec s e f

/-- `CVT.D`, op 1 (R80). -/
def execCvtD (a : Word) (s : State) : Host.Outcome State Fault Refusal :=
  s.respond (constructD s.config (operand64 a)) none

/-- `CVT.S`, op 2 (R84). -/
def execCvtS (a : Word) (s : State) : Host.Outcome State Fault Refusal :=
  s.respond (constructD s.config (widen (operand32 a))) none

/-- `CVT.W`, op 3 (R85). -/
def execCvtW (a : Word) (s : State) : Host.Outcome State Fault Refusal :=
  s.respond (constructD s.config (i2d (operandInt s.config a))) none

/-- `DEC`, op 4 (R86). -/
def execDec (a : Word) (s : State) : Host.Outcome State Fault Refusal :=
  s.respond (decodeCode s.config (operandCode s.config a)) none

end Sys2Proof.Machine
end

