-- ==== Sys2Proof/Machine/Extraction.lean ====
section
/-! DEFINITION. Bit-field extraction, packing and read-back: `XBF`, `ENC`, `RD.D` (44_extract_format.md). -/

namespace Sys2Proof.Machine

/-- `c_frac_hub` of zero, one and infinity (R121): `c_frac` above the open bit. Log entry 5. -/
def openHubFraction (c : Config) (v : Word) (cFrac : Nat) : Nat := cat cFrac (c.freeHubBit v).toNat 1

/-- The compact exponent of the general arm: `v[62:52] - BIAS_DIFF` where it lies in `0 .. CUSTOM_MAX_EXP`, else the open
value cut to `EXP_BITS` bits (R120, R128). Log entry 6. -/
def generalCExp (c : Config) (v : Word) : Nat :=
  if c.biasDiff ≤ (nexp v).toNat ∧ (nexp v).toNat - c.biasDiff ≤ c.customMaxExp then (nexp v).toNat - c.biasDiff
  else c.freeCExp v % 2 ^ c.expBits

/-- `XBF(v)` (R120): the reserved patterns for zero, one and infinity (R53), the field slices for every other word. -/
def extractFields (c : Config) (v : Word) : BitFields :=
  let mk (cExp cFrac cFracHub : Nat) : BitFields :=
    { sign := sign v, nativeExp := nexp v, nativeFrac := nfrac v, cExp := cExp, cFrac := cFrac, cFracHub := cFracHub }
  if mag v = 0 then mk 0 0 (openHubFraction c v 0)
  else if mag v = mag ONE then mk (2 ^ (c.expBits - 1)) 0 (openHubFraction c v 0)
  else if mag v = mag PINF then mk (ones c.expBits) (ones c.mantBits) (openHubFraction c v (ones c.mantBits))
  else mk (generalCExp c v) (slice v.toNat c.shift c.mantBits) (slice v.toNat (c.shift - 1) (c.mantBits + 1))

/-- The packed code of a record, `sign ‖ c_exp ‖ c_frac`, zero-extended to 64 bits (R122). -/
def packFields (c : Config) (b : BitFields) : Word := BitVec.ofNat 64 (packCode c b.sign b.cExp b.cFrac)

/-- `ENC(v)` (R122). -/
def encodeValue (c : Config) (v : Word) : Word := packFields c (extractFields c v)

/-- `XBF`, op 5 (R120): the record, and `y = zext_64(ENC(a))`. -/
def execXbf (a : Word) (s : State) : Host.Outcome State Fault Refusal :=
  s.respond (encodeValue s.config (operand64 a)) (some (extractFields s.config (operand64 a)))

/-- `ENC`, op 6 (R122). -/
def execEnc (a : Word) (s : State) : Host.Outcome State Fault Refusal :=
  s.respond (encodeValue s.config (operand64 a)) none

/-- `RD.D`, op 7 (R123): the operand word unchanged. -/
def execRdD (a : Word) (s : State) : Host.Outcome State Fault Refusal :=
  s.respond (operand64 a) none

end Sys2Proof.Machine
end

