-- ==== Sys2Proof/Machine/Quantization.lean ====
section
/-! DEFINITION. `QNT`, the quantization primitive (42_quantize.md). -/

namespace Sys2Proof.Machine

/-- `QNT(a)` (R101): the special handler, else `CLAMP(SNAP(a))`. -/
def quantize (c : Config) (a : Word) : Word :=
  match special c a with
  | (true, r) => r
  | (false, _) => clamp c (snap c a)

/-- `QNT`, op 0 (R101). -/
def execQnt (a : Word) (s : State) : Host.Outcome State Fault Refusal :=
  s.respond (quantize s.config (operand64 a)) none

end Sys2Proof.Machine
end

