-- ==== Sys2Proof/Machine/Dispatch.lean ====
section
/-! DEFINITION. The dispatch of an instruction to its meaning: one arm per constructor of Instr (30_encoding.md R56). -/

namespace Sys2Proof.Machine

def exec (i : Instr) (s : State) : Host.Outcome State Fault Refusal :=
  match i with
  | .qnt a => Sys2Proof.Machine.execQnt a s
  | .cvtD a => Sys2Proof.Machine.execCvtD a s
  | .cvtS a => Sys2Proof.Machine.execCvtS a s
  | .cvtW a => Sys2Proof.Machine.execCvtW a s
  | .dec a => Sys2Proof.Machine.execDec a s
  | .xbf a => Sys2Proof.Machine.execXbf a s
  | .enc a => Sys2Proof.Machine.execEnc a s
  | .rdD a => Sys2Proof.Machine.execRdD a s

end Sys2Proof.Machine
end

