-- ==== Sys2Proof/Machine/Step.lean ====
section
/-! DEFINITION. One step: the request that stands at the port is decoded and evaluated (30_encoding.md R56). -/

namespace Sys2Proof.Machine

/-- Evaluate the offered request. "The response is a function of the request and the configuration and of nothing
else" (R56). -/
def step (s : State) : Host.Outcome State Fault Refusal := exec (decodeRequest s.request) s

/-- The client offers a request (R56). -/
def State.offer (s : State) (i : Instr) : State := s.withRequest (encode i)

/-- The table's word on the request port, so that the next step evaluates it. The block fetches nothing: the client
offers each request (R56, 20_memory.md R44). Log entry 7. -/
def State.withFetchWord (s : State) (nbits w : Nat) : State := s.withRequest (BitVec.ofNat 67 (w % 2 ^ nbits))

end Sys2Proof.Machine
end

