-- ==== Sys2Proof/Machine/Contract.lean ====
section
/-! DEFINITION. The arithmetic composition contract (43_arithmetic.md): a native binary64 operation followed by one pass
through `QNT`. These "are not operations of the block and have no operation code"; they take `ARITH` as an argument
(R114). -/

namespace Sys2Proof.Machine

/-- The four binary operators. -/
inductive BinOp where
  | add | sub | mul | div
deriving DecidableEq, Repr

/-- The native operation of a binary operator (R114). -/
def nativeBin (A : Arith) (op : BinOp) (a b : Word) : Word :=
  match op with
  | .add => A.add64 a b
  | .sub => A.sub64 a b
  | .mul => A.mul64 a b
  | .div => A.div64 a b

/-- `ADD`, `SUB`, `MUL`, `DIV` (R110): `QNT` of the native result. -/
def contractBin (c : Config) (A : Arith) (op : BinOp) (a b : Word) : Word := quantize c (nativeBin A op a b)

/-- `lhs <op>= rhs` assigns `lhs <op> rhs` (R111). -/
def compoundAssign (c : Config) (A : Arith) (op : BinOp) (lhs rhs : Word) : Word := contractBin c A op lhs rhs

/-- `SQRT(a) = QNT(sqrt64(a))` (R112). -/
def contractSqrt (c : Config) (A : Arith) (a : Word) : Word := quantize c (A.sqrt64 a)

/-- The open correction function `FMA_CORRECT(a, b, c, r)` (R113, decision D14). -/
abbrev FmaCorrect := Word → Word → Word → Word → Word

/-- The bits below the hub bit, `r[SHIFT-2:0]`. -/
def belowHub (c : Config) (r : Word) : Nat := slice r.toNat 0 (c.shift - 1)

/-- What the spec says of `FMA_CORRECT`: the identity when `r[SHIFT-2:0] /= 0` (R113). -/
def FmaCorrect.Admissible (c : Config) (F : FmaCorrect) : Prop :=
  ∀ x y z r : Word, belowHub c r ≠ 0 → F x y z r = r

/-- The configuration in which the correction pass is enabled (R113). -/
abbrev fmaCorrected (c : Config) : Prop := c.expBits = 8 ∧ c.mantBits = 23

/-- `FMA(a, b, c)` over a given correction function (R113). -/
def contractFmaWith (c : Config) (A : Arith) (F : FmaCorrect) (x y z : Word) : Word :=
  quantize c (if fmaCorrected c then F x y z (A.fma64 x y z) else A.fma64 x y z)

/-- Why a contract operation gives no value. -/
inductive ContractRefusal where
  /-- `FMA` in 8/23 with the native result on a grid boundary: "this spec gives `FMA` no value: a model refuses it"
  (R113, U2); safe. -/
  | fmaCorrectionOpen
deriving DecidableEq, Repr

/-- `FMA(a, b, c)` where the spec gives it a value (R113). Log entry 10. -/
def contractFma (c : Config) (A : Arith) (x y z : Word) : Except ContractRefusal Word :=
  if fmaCorrected c ∧ belowHub c (A.fma64 x y z) = 0 then .error .fmaCorrectionOpen
  else .ok (quantize c (A.fma64 x y z))

end Sys2Proof.Machine
end

