-- ==== Sys2Proof/Machine/Denotation.lean ====
section
/-! DEFINITION. What words denote: `val` of a binary64 word (30_encoding.md R50), of a binary32 word (R51) and of a general
compact code (R54), as exact rational numbers. No operation computes with these. -/

namespace Sys2Proof.Machine

/-- What a floating-point word denotes: a signed magnitude (zero has a sign), a signed infinity, a NaN with its sign bit. -/
inductive Denotation where
  | finite (sign : BitVec 1) (magnitude : ℚ)
  | infinite (sign : BitVec 1)
  | nan (sign : BitVec 1)
deriving DecidableEq, Repr

/-- `|x| < |y|` of two denotations; false where one is a NaN. -/
def Denotation.magLt : Denotation → Denotation → Prop
  | .finite _ x, .finite _ y => x < y
  | .finite _ _, .infinite _ => True
  | .finite _ _, .nan _ => False
  | .infinite _, _ => False
  | .nan _, _ => False

/-- `val(d)` of a binary64 word, the table of R50. -/
def val (d : Word) : Denotation :=
  let e := (nexp d).toNat
  let f : ℚ := (nfrac d).toNat
  if e = 0 then .finite (sign d) ((2 : ℚ) ^ (-1022 : Int) * (f / 2 ^ 52))
  else if e = 2047 then (if nfrac d = 0 then .infinite (sign d) else .nan (sign d))
  else .finite (sign d) ((2 : ℚ) ^ ((e : Int) - 1023) * (1 + f / 2 ^ 52))

/-- The value of a binary32 word (R51). -/
def val32 (w : BitVec 32) : Denotation :=
  let s : BitVec 1 := w.extractLsb' 31 1
  let e := (w.extractLsb' 23 8).toNat
  let f := (w.extractLsb' 0 23).toNat
  if e = 0 then .finite s ((2 : ℚ) ^ (-126 : Int) * ((f : ℚ) / 2 ^ 23))
  else if e = 255 then (if f = 0 then .infinite s else .nan s)
  else .finite s ((2 : ℚ) ^ ((e : Int) - 127) * (1 + (f : ℚ) / 2 ^ 23))

/-- The value of a general compact code, `(-1)^s * 2^(e - CUSTOM_BIAS) * (1 + f / 2^MANT_BITS + 1 / 2^(MANT_BITS+1))`
(R54). -/
def codeVal (c : Config) (u : Nat) : Denotation :=
  .finite (codeSign c u)
    ((2 : ℚ) ^ ((codeExp c u : Int) - c.customBias) *
      (1 + (codeFrac c u : ℚ) / 2 ^ c.mantBits + 1 / 2 ^ (c.mantBits + 1)))

end Sys2Proof.Machine
end

