-- ==== Sys2Proof/Machine/HubValue.lean ====
section
/-! DEFINITION. Which words are hub values (10_state.md R21) and which codes are reserved or canonical (30_encoding.md
R53, R55). These say what the operations' results are; no operation tests them. -/

namespace Sys2Proof.Machine

/-- The special values of R21 (a): signed zero, signed infinity, signed one. -/
abbrev isSpecial (v : Word) : Prop := mag v = 0 ∨ mag v = mag PINF ∨ mag v = mag ONE

/-- A finite normal word on the hub grid (R21 (b), without the range). -/
abbrev isGridPoint (c : Config) (v : Word) : Prop := 1 ≤ (nexp v).toNat ∧ (nexp v).toNat ≤ 2046 ∧ onGrid c v

/-- The representable range of R21 (b): `mag(lowestVal) <= mag(v) <= mag(maxVal)`. -/
abbrev inRange (c : Config) (v : Word) : Prop := mag c.lowestVal ≤ mag v ∧ mag v ≤ mag c.maxVal

/-- A hub value (R21). -/
abbrev isHubValue (c : Config) (v : Word) : Prop := isSpecial v ∨ (isGridPoint c v ∧ inRange c v)

/-- A NaN word (30_encoding.md R50): exponent field all-ones, fraction nonzero. -/
abbrev isNaN (v : Word) : Prop := (nexp v).toNat = 2047 ∧ nfrac v ≠ 0

/-- The top edge of the grid cell of `maxVal`, `(mag(maxVal) | (2^SHIFT - 1)) + 1` (42_quantize.md R103). -/
def maxCellEdge (c : Config) : Nat := ((mag c.maxVal).toNat ||| ones c.shift) + 1

/-- The hub value that shares the compact code of `s ‖ ONE`: `±(1 + 2^-(MANT_BITS+1))`, the grid point of the cell that
starts at one (70_reset_and_hazards.md R152). -/
def unityAlias (c : Config) (s : BitVec 1) : Word := signedOne s ||| c.hubBit

/-- The three reserved code points, with either sign (30_encoding.md R53). -/
abbrev isReservedCode (c : Config) (u : Nat) : Prop :=
  (codeExp c u = 0 ∧ codeFrac c u = 0) ∨ (codeExp c u = 2 ^ (c.expBits - 1) ∧ codeFrac c u = 0) ∨
    (codeExp c u = ones c.expBits ∧ codeFrac c u = ones c.mantBits)

/-- A canonical code: "the result of `ENC` on some hub value" (30_encoding.md R55). -/
def isCanonicalCode (c : Config) (u : Nat) : Prop := ∃ v : Word, isHubValue c v ∧ (encodeValue c v).toNat = u

/-- The named specials (10_state.md R29, decision D19). -/
def namedSpecials (c : Config) : List Word := [0, ONE, PINF, c.maxVal, c.minVal, c.lowestVal]

end Sys2Proof.Machine
end

