-- ==== Sys2Proof/Machine/Flags.lean ====
section
/-! DEFINITION. The block has no flags (10_state.md R26, 60_exceptions.md R140). What a processor would report by a flag is
one of the value-based outcomes of R141, "which take the place of an exception table"; this file names which one a request
meets. It "leaves no trace beyond the result", so State holds nothing of it. -/

namespace Sys2Proof.Machine

/-- The rows of R141, and `ordinary` for a request that meets none of them. -/
inductive ValueOutcome where
  | ordinary | overflow | underflow | nanInput | reservedCode
deriving DecidableEq, Repr

/-- The overflow condition of `QNT`: the snapped candidate is above `maxVal` (R101, R103). -/
abbrev snapOverflows (c : Config) (a : Word) : Prop := mag (snap c a) > mag c.maxVal

/-- The overflow condition of construction: the pre-rounded value is infinite (R83), or the candidate is above `maxVal`
(R80 step 4). -/
abbrev constructOverflows (c : Config) (a : Word) : Prop :=
  if onGrid c a then mag a > mag c.maxVal
  else mag (preRound c a) = mag PINF ∨ mag (preRound c a ||| c.hubBit) > mag c.maxVal

/-- The outcome by class, the overflow condition being tested last (R141). -/
def outcomeByClass (c : Config) (a : Word) (overflows : Bool) : ValueOutcome :=
  match classOf c a with
  | .zero => .ordinary
  | .inf => .ordinary
  | .one => .ordinary
  | .nan => .nanInput
  | .tiny => .underflow
  | .general => if overflows then .overflow else .ordinary

/-- The value-based outcome of a request (R141). -/
def valueOutcome (c : Config) (i : Instr) : ValueOutcome :=
  match i with
  | .qnt a => outcomeByClass c (operand64 a) (decide (snapOverflows c (operand64 a)))
  | .cvtD a => outcomeByClass c (operand64 a) (decide (constructOverflows c (operand64 a)))
  | .cvtS a => outcomeByClass c (widen (operand32 a)) (decide (constructOverflows c (widen (operand32 a))))
  | .cvtW a => outcomeByClass c (i2d (operandInt c a)) (decide (constructOverflows c (i2d (operandInt c a))))
  | .dec a => if isReservedCode c (operandCode c a) then .reservedCode else .ordinary
  | .xbf _ => .ordinary
  | .enc _ => .ordinary
  | .rdD _ => .ordinary

end Sys2Proof.Machine
end

