-- ==== Sys2Proof/Machine/NativeArith.lean ====
section
/-! DEFINITION. The IEEE 754 binary64 operations in round-to-nearest-even, an instance of `ARITH` (43_arithmetic.md R114;
93_implementation_defined.md G4, general knowledge). PRESUMED: log entry 9. The block never evaluates them. -/

namespace Sys2Proof.Machine

/-- A finite binary64 word, exactly: `(-1)^neg * m * 2^e`. -/
structure Exact where
  neg : Bool
  m : Nat
  e : Int
deriving DecidableEq, Repr

/-- The exact value of a finite word (30_encoding.md R50). -/
def exactOf (d : Word) : Exact where
  neg := sign d == 1
  m := if (nexp d).toNat = 0 then (nfrac d).toNat else 2 ^ 52 + (nfrac d).toNat
  e := ((max (nexp d).toNat 1 : Nat) : Int) - 1075

def signBit (neg : Bool) : BitVec 1 := if neg then 1 else 0

/-- `m >> k` rounded to nearest, ties to even, where `sticky` says that the exact value is above `m`. -/
def roundSticky (m k : Nat) (sticky : Bool) : Nat :=
  let q := m >>> k
  let rem := m % 2 ^ k
  let half := 2 ^ (k - 1)
  if rem > half ∨ (rem = half ∧ (sticky = true ∨ q % 2 = 1)) then q + 1 else q

/-- The binary64 word nearest to `(-1)^neg * m * 2^e` (a little above it when `sticky`), ties to even, with gradual
underflow and overflow to infinity. With `sticky`, `m` has more than 54 bits. -/
def roundToWord (neg : Bool) (m : Nat) (e : Int) (sticky : Bool) : Word :=
  if m = 0 then signedZero (signBit neg)
  else
    let lsb : Int := max ((Nat.log2 m : Int) + e - 52) (-1074)
    let q := if lsb ≤ e then m <<< (e - lsb).toNat else roundSticky m (lsb - e).toNat sticky
    let bits := (lsb + 1074).toNat * 2 ^ 52 + q
    if (mag PINF).toNat ≤ bits then signedInf (signBit neg)
    else ofSignMag (signBit neg) (BitVec.ofNat 63 bits)

/-- The exact sum of two exact values; the sign of an exact zero sum is that of equal-signed operands, else plus. -/
def roundSum (x y : Exact) : Word :=
  let e := min x.e y.e
  let mx : Int := (x.m <<< (x.e - e).toNat : Nat)
  let my : Int := (y.m <<< (y.e - e).toNat : Nat)
  let t : Int := (if x.neg then -mx else mx) + (if y.neg then -my else my)
  if t = 0 then signedZero (signBit (x.neg && y.neg && x.m == 0 && y.m == 0))
  else roundToWord (decide (t < 0)) t.natAbs e false

def isNaNWord (d : Word) : Bool := decide (mag d > mag PINF)
def isInfWord (d : Word) : Bool := decide (mag d = mag PINF)
def isZeroWord (d : Word) : Bool := decide (mag d = 0)

/-- A generated NaN: a quiet NaN whose sign and payload are open (U4). -/
def drawNaN (op : NativeOp) (a b c : Word) : Word := Config.freeNaN op a b c ||| 0x7FF8000000000000

def negate (d : Word) : Word := d ^^^ 0x8000000000000000

/-- The sum of two words, with the NaN it may generate. -/
def sumOr (generated : Word) (a b : Word) : Word :=
  if isNaNWord a || isNaNWord b then generated
  else if isInfWord a then (if isInfWord b && sign a != sign b then generated else a)
  else if isInfWord b then b
  else roundSum (exactOf a) (exactOf b)

def ieeeAdd (a b : Word) : Word := sumOr (drawNaN .add a b 0) a b

def ieeeSub (a b : Word) : Word := sumOr (drawNaN .sub a b 0) a (negate b)

/-- The sign of a product or quotient. -/
def productSign (a b : Word) : Bool := sign a != sign b

def ieeeMul (a b : Word) : Word :=
  if isNaNWord a || isNaNWord b || (isInfWord a && isZeroWord b) || (isZeroWord a && isInfWord b) then drawNaN .mul a b 0
  else if isInfWord a || isInfWord b then signedInf (signBit (productSign a b))
  else roundToWord (productSign a b) ((exactOf a).m * (exactOf b).m) ((exactOf a).e + (exactOf b).e) false

/-- The quotient carries 120 extra bits and a sticky bit. -/
def ieeeDiv (a b : Word) : Word :=
  if isNaNWord a || isNaNWord b || (isInfWord a && isInfWord b) || (isZeroWord a && isZeroWord b) then drawNaN .div a b 0
  else if isInfWord a || isZeroWord b then signedInf (signBit (productSign a b))
  else if isInfWord b then signedZero (signBit (productSign a b))
  else
    let n := (exactOf a).m <<< 120
    let d := (exactOf b).m
    roundToWord (productSign a b) (n / d) ((exactOf a).e - (exactOf b).e - 120) (n % d != 0)

/-- The integer square root, bit by bit from bit `k - 1` down, from the root `r` found so far. -/
def intSqrtFrom (n : Nat) : Nat → Nat → Nat
  | 0, r => r
  | k + 1, r => intSqrtFrom n k (if (r + 2 ^ k) * (r + 2 ^ k) ≤ n then r + 2 ^ k else r)

/-- The radicand is scaled by an even power of two to more than 120 bits; the root carries a sticky bit. -/
def ieeeSqrt (a : Word) : Word :=
  if isNaNWord a then drawNaN .sqrt a 0 0
  else if isZeroWord a then a
  else if sign a = 1 then drawNaN .sqrt a 0 0
  else if isInfWord a then a
  else
    let x := exactOf a
    let up : Nat := if x.e % 2 = 0 then 120 else 121
    let n := x.m <<< up
    let root := intSqrtFrom n 88 0
    roundToWord false root ((x.e - up) / 2) (root * root != n)

/-- `a*b + c` with one rounding. -/
def ieeeFma (a b c : Word) : Word :=
  if isNaNWord a || isNaNWord b || isNaNWord c || (isInfWord a && isZeroWord b) || (isZeroWord a && isInfWord b) then
    drawNaN .fma a b c
  else if isInfWord a || isInfWord b then sumOr (drawNaN .fma a b c) (signedInf (signBit (productSign a b))) c
  else if isInfWord c then c
  else
    roundSum { neg := productSign a b, m := (exactOf a).m * (exactOf b).m, e := (exactOf a).e + (exactOf b).e } (exactOf c)

/-- The native operations as IEEE 754 binary64 arithmetic (R114). -/
def ieeeArith : Arith where
  add64 := ieeeAdd
  sub64 := ieeeSub
  mul64 := ieeeMul
  div64 := ieeeDiv
  sqrt64 := ieeeSqrt
  fma64 := ieeeFma

end Sys2Proof.Machine
end

