-- ==== Sys2Proof/Machine/Render.lean ====
section
/-! DEFINITION. The textual renderings of `XBF` and `ENC` results: `toBinaryString` and `toHexString` (44_extract_format.md
R124, R125). Software surface: no step of the machine calls them. -/

namespace Sys2Proof.Machine

/-- One digit, `0` to `9` then `A` to `F` in upper case (R125). -/
def digitChar (d : Nat) : Char := if d < 10 then Char.ofNat (48 + d) else Char.ofNat (55 + d)

/-- Exactly `k` digits of `n` in base `2^b`, most significant first. -/
def digits (b n : Nat) : Nat → List Char
  | 0 => []
  | k + 1 => digitChar (slice n (b * k) b) :: digits b n k

/-- `toBinaryString()` as characters (R124): `sign|EXP_BITS digits|MANT_BITS+1 digits`, no spaces (90_conflicts.md C6). -/
def toBinaryChars (c : Config) (v : Word) : List Char :=
  let b := extractFields c v
  digits 1 b.sign.toNat 1 ++ ['|'] ++ digits 1 b.cExp c.expBits ++ ['|'] ++ digits 1 b.cFracHub (c.mantBits + 1)

/-- `ceil(N / 4)`, the digits of the hexadecimal rendering (R125). -/
def hexWidth (c : Config) : Nat := (c.codeBits + 3) / 4

/-- `toHexString()` as characters (R125). -/
def toHexChars (c : Config) (v : Word) : List Char :=
  ['0', 'x'] ++ digits 4 (encodeValue c v).toNat (hexWidth c)

/-- `toBinaryString()` (R124). -/
def toBinaryString (c : Config) (v : Word) : String := String.ofList (toBinaryChars c v)

/-- `toHexString()` (R125). -/
def toHexString (c : Config) (v : Word) : String := String.ofList (toHexChars c v)

/-- The value of one digit character, and of a digit sequence in base `2^b`: how a reader reads a rendering back. -/
def charDigit (ch : Char) : Nat := if ch.toNat < 58 then ch.toNat - 48 else ch.toNat - 55

def readDigits (b : Nat) (cs : List Char) : Nat := cs.foldl (fun n ch => n * 2 ^ b + charDigit ch) 0

end Sys2Proof.Machine
end

