-- ==== Sys2Proof/Safety.lean ====
section
/-! DEFINITION. What a claim about a run may rely on: the state invariant, and what counts as a result of the number
format. -/

namespace Sys2Proof.Machine

/-- The record's last three fields fit the widths of 10_state.md R25, and the fraction with the hub bit is the fraction
with one bit more (R25, 44_extract_format.md R121). -/
def BitFields.Fits (c : Config) (b : BitFields) : Prop :=
  b.cExp < 2 ^ c.expBits ∧ b.cFrac < 2 ^ c.mantBits ∧ b.cFracHub < 2 ^ (c.mantBits + 1) ∧ b.cFracHub / 2 = b.cFrac

/-- The state invariant: a legal configuration (00_scope.md R8); where a record stands at the response port, it fits its
widths, and the response word is its packed code, with `y[63:N] = 0` (30_encoding.md R57; 44_extract_format.md R120,
R122). -/
def State.Inv (s : State) : Prop :=
  s.config.Legal ∧ ∀ b, s.bf = some b →
    b.Fits s.config ∧ s.y.toNat = packCode s.config b.sign b.cExp b.cFrac ∧ s.y.toNat < 2 ^ s.config.codeBits

/-- A word that a construction may answer (41_construct.md R88): a special value, or a grid point not above `maxVal`. -/
abbrev isConstructed (c : Config) (v : Word) : Prop := isSpecial v ∨ (isGridPoint c v ∧ mag v ≤ mag c.maxVal)

end Sys2Proof.Machine
end

