-- ==== Sys2Proof/Certificates/Slice0/Obligations.lean ====
section
/-! DEFINITION. The statements for the provers. The reference functions at the head say the operations' results by natural
numbers alone (quotients and remainders of the 63-bit magnitude), without the model's own operations, so that a statement
compares two descriptions and does not repeat one. -/

namespace Sys2Proof.Reference

/-- The magnitude patterns of one and of infinity. -/
def oneMag : Nat := 1023 * 2 ^ 52
def infMag : Nat := 2047 * 2 ^ 52

/-- The magnitude of the general code `(e, f)` (41_construct.md R87), in terms of the constant `BIAS_DIFF`. -/
def codeMag (c : Config) (e f : Nat) : Nat :=
  (e + c.biasDiff) * 2 ^ 52 + f * 2 ^ (52 - c.mantBits) + 2 ^ (51 - c.mantBits)

/-- The magnitudes of `lowestVal` and `maxVal` (10_state.md R22, R23). -/
def lowMag (c : Config) : Nat := codeMag c 0 1
def maxMag (c : Config) : Nat := codeMag c c.maxvalExpField c.maxvalFracField

/-- The midpoint of the grid cell of a magnitude (42_quantize.md R100). -/
def midMag (c : Config) (m : Nat) : Nat := m / 2 ^ (52 - c.mantBits) * 2 ^ (52 - c.mantBits) + 2 ^ (51 - c.mantBits)

/-- Saturation strictly above `maxVal` (40_special_cases.md R75). -/
def clampMag (c : Config) (m : Nat) : Nat := if maxMag c < m then infMag else m

/-- The three special-case answers, else `k` (40_special_cases.md R70 to R74). -/
def specialMag (c : Config) (m k : Nat) : Nat :=
  if m = 0 ∨ m = oneMag ∨ m = infMag then m else if infMag < m then infMag else if m < lowMag c then 0 else k

/-- The magnitude of `QNT` (42_quantize.md R101). -/
def quantMag (c : Config) (m : Nat) : Nat := specialMag c m (clampMag c (midMag c m))

/-- `m` rounded to the nearest multiple of `2^k`, ties to the even multiple. -/
def nearestEven (m k : Nat) : Nat :=
  if 2 ^ k < 2 * (m % 2 ^ k) ∨ (2 * (m % 2 ^ k) = 2 ^ k ∧ m / 2 ^ k % 2 = 1) then (m / 2 ^ k + 1) * 2 ^ k
  else m / 2 ^ k * 2 ^ k

/-- The pre-rounded magnitude: for `PRE_ROUND_32` (R81) to 29 discarded bits, more below `2^-126`, and infinity from
`2^128`; for `PRE_ROUND_M` (R82) to `MANT_BITS` fraction bits, and infinity where the exponent field overflows. -/
def preRoundMag (c : Config) (m : Nat) : Nat :=
  match c.preRound with
  | .binary32 =>
    let r := nearestEven m (if 897 ≤ m / 2 ^ 52 then 29 else 926 - m / 2 ^ 52)
    if 1151 * 2 ^ 52 ≤ r then infMag else r
  | .mantBits => nearestEven m (52 - c.mantBits)

/-- The magnitude of `CVT.D` (41_construct.md R80, R83). -/
def constructMag (c : Config) (m : Nat) : Nat :=
  specialMag c m
    (if m % 2 ^ (52 - c.mantBits) = 2 ^ (51 - c.mantBits) then clampMag c m
     else if preRoundMag c m = infMag then infMag else clampMag c (preRoundMag c m + 2 ^ (51 - c.mantBits)))

/-- The word of a sign bit and a magnitude. -/
def word (sign magnitude : Nat) : Word := BitVec.ofNat 64 (sign * 2 ^ 63 + magnitude)

/-- The sign bit and the magnitude of a word. -/
def signOf (a : Word) : Nat := a.toNat / 2 ^ 63
def magOf (a : Word) : Nat := a.toNat % 2 ^ 63

/-- The fields of a code in the low `N` bits of a word (30_encoding.md R52). -/
def codeS (c : Config) (a : Word) : Nat := a.toNat / 2 ^ (c.expBits + c.mantBits) % 2
def codeE (c : Config) (a : Word) : Nat := a.toNat / 2 ^ c.mantBits % 2 ^ c.expBits
def codeF (c : Config) (a : Word) : Nat := a.toNat % 2 ^ c.mantBits

/-- The two's complement integer in the low `w` bits of a word (41_construct.md R85). -/
def twosComplement (w : Nat) (a : Word) : Int :=
  if a.toNat % 2 ^ w < 2 ^ (w - 1) then (a.toNat % 2 ^ w : Nat) else (a.toNat % 2 ^ w : Nat) - (2 ^ w : Nat)

end Sys2Proof.Reference

open Sys2Proof Sys2Proof.Machine Sys2Proof.Reference

/-- A step evaluates the request that stands at the port, and nothing else: when the port word is the encoding of a
well-formed instruction, the step is `exec` of that instruction at that state. Offering a request, or placing the table's
word, changes the request port only. (30_encoding.md section 4; the port is log entry 3, `withFetchWord` log entry 7.) -/
def Obligations.StepRunsTheOfferedRequest : Prop :=
  (∀ (s : State) (i : Instr), i.wf = true → s.request = encode i → step s = exec i s) ∧
  (∀ (s : State) (i : Instr), s.offer i = { s with request := encode i }) ∧
  (∀ (s : State) (i : Instr) (nbits : Nat), 67 ≤ nbits → s.withFetchWord nbits (encode i).toNat = s.offer i)

/-- The table of 00_scope.md R9 at reset, its words, its values and its decimals. Rests on the spec's decisions D3 and
D5; the build is log entry 2. -/
def Obligations.ResetHoldsTheDefaultConstants : Prop :=
  State.reset.config.expBits = 8 ∧ State.reset.config.mantBits = 23 ∧
  State.reset.config.codeBits = 32 ∧ State.reset.config.shift = 29 ∧
  State.reset.config.hubBit = 0x0000000010000000 ∧
  2 ^ State.reset.config.shift - 1 = 0x000000001FFFFFFF ∧
  State.reset.config.hubBit - 1 = 0x000000000FFFFFFF ∧
  State.reset.config.customBias = 128 ∧ State.reset.config.biasDiff = 895 ∧ State.reset.config.customMaxExp = 255 ∧
  State.reset.config.lowestVal = 0x37F0000030000000 ∧
  State.reset.config.maxVal = 0x47DFFFFFF0000000 ∧
  State.reset.config.minVal = 0xC7DFFFFFF0000000 ∧
  val State.reset.config.lowestVal = .finite 0 ((2 : ℚ) ^ (-128 : Int) * (1 + 3 * (2 : ℚ) ^ (-24 : Int))) ∧
  val State.reset.config.maxVal = .finite 0 ((2 : ℚ) ^ (126 : Int) * (2 - (2 : ℚ) ^ (-24 : Int))) ∧
  |(2 : ℚ) ^ (-128 : Int) * (1 + 3 * (2 : ℚ) ^ (-24 : Int)) - 293873640254264289 / 10 ^ 56| ≤ 1 / (2 * 10 ^ 56) ∧
  |(2 : ℚ) ^ (126 : Int) * (2 - (2 : ℚ) ^ (-24 : Int)) - 170141178389866831 * 10 ^ 21| ≤ 10 ^ 21 / 2

/-- The state invariant holds at reset. The ports at reset are the model's choice (log entry 3). -/
def Obligations.ResetSatisfiesTheInvariant : Prop := State.reset.Inv

/-- Request words written out in 95_test_vectors.md section 3 decode to the requests they stand for. The numbering is
the spec's decision D2. -/
def Obligations.RequestWordsOfTheSpecDecode : Prop :=
  decodeRequest 0x04000000000000000 = .qnt 0x4000000000000000 ∧
  decodeRequest 0x137F0000030000000 = .cvtD 0x37F0000030000000 ∧
  decodeRequest 0x2000000007F7FFFFF = .cvtS 0x7F7FFFFF ∧
  decodeRequest 0x30000000000000003 = .cvtW 3 ∧
  decodeRequest 0x40000000000000001 = .dec 1 ∧
  decodeRequest 0x54000000010000000 = .xbf 0x4000000010000000 ∧
  decodeRequest 0x637F0000030000000 = .enc 0x37F0000030000000 ∧
  decodeRequest 0x737F0000030000000 = .rdD 0x37F0000030000000

/-- The eight rows of the opcode table (30_encoding.md R56): a word whose masked bits match a row decodes to that row's
operation with the operand in bits 63:0. The numbering and the format are the spec's decisions D1 and D2. -/
def Obligations.OpcodeTableRowsSelectTheOperation : Prop :=
  ∀ w : RequestWord,
    let a : Word := BitVec.ofNat 64 (w.toNat % 2 ^ 64)
    (w &&& 0x70000000000000000 = 0x00000000000000000 → decodeRequest w = .qnt a) ∧
    (w &&& 0x70000000000000000 = 0x10000000000000000 → decodeRequest w = .cvtD a) ∧
    (w &&& 0x70000000000000000 = 0x20000000000000000 → decodeRequest w = .cvtS a) ∧
    (w &&& 0x70000000000000000 = 0x30000000000000000 → decodeRequest w = .cvtW a) ∧
    (w &&& 0x70000000000000000 = 0x40000000000000000 → decodeRequest w = .dec a) ∧
    (w &&& 0x70000000000000000 = 0x50000000000000000 → decodeRequest w = .xbf a) ∧
    (w &&& 0x70000000000000000 = 0x60000000000000000 → decodeRequest w = .enc a) ∧
    (w &&& 0x70000000000000000 = 0x70000000000000000 → decodeRequest w = .rdD a)

/-- Decode and encode agree in both directions, for every operation and every operand word: no bit of the 67 is dropped.
The request format is the spec's decision D1. -/
def Obligations.DecodeAndEncodeAgree : Prop :=
  (∀ i : Instr, i.wf = true → decodeRequest (encode i) = i ∧ decode (encode i).toNat = .ok i) ∧
  (∀ w : RequestWord, encode (decodeRequest w) = w ∧ (decodeRequest w).wf = true)

/-- Every step from every state with the invariant keeps it, whatever request stands at the port: the configuration
stays legal, and a record at the response port fits its widths and packs to the response word. Log entries 1, 3, 4 and
6. -/
def Obligations.EveryStepKeepsTheInvariant : Prop :=
  ∀ s t : State, s.Inv → step s = .next t → t.Inv

/-- Every operation is total (60_exceptions.md R140): in every legal configuration, for every one of the `2^67`
requests, the step answers a next state; a record comes with it exactly for `XBF`. The ports are the model's (log
entries 3 and 4). -/
def Obligations.EveryRequestIsAnswered : Prop :=
  ∀ s : State, s.config.Legal →
    ∃ t : State, step s = .next t ∧ t.config = s.config ∧ t.request = s.request ∧
      (t.bf.isSome = true ↔ ∃ a, decodeRequest s.request = .xbf a)

/-- A configuration outside the legal range is refused by every operation (decision D4; the refusal's place is log entry
1). -/
def Obligations.IllegalConfigurationIsRefused : Prop :=
  ∀ (s : State) (i : Instr), ¬ s.config.Legal → exec i s = .refused .illegalConfiguration

/-- What every operation leaves unchanged: the configuration, with it every derived constant (10_state.md R24), and the
request port; an operation other than `XBF` leaves no record. Log entries 3 and 4. -/
def Obligations.OperationsWriteOnlyTheResponsePorts : Prop :=
  ∀ (s t : State) (i : Instr), exec i s = .next t →
    t.config = s.config ∧ t.request = s.request ∧
    t.config.lowestVal = s.config.lowestVal ∧ t.config.maxVal = s.config.maxVal ∧ t.config.minVal = s.config.minVal ∧
    ((∀ a, i ≠ .xbf a) → t.bf = none)

/-- No step-to-step memory (10_state.md R20; 20_memory.md R43): what an operation answers does not depend on the
operation evaluated before it, nor on which copy of the block evaluates it. The ports are log entry 3. -/
def Obligations.ResponsesDependOnRequestAndConstantsOnly : Prop :=
  (∀ (s t : State) (i j : Instr), exec i s = .next t → exec j t = exec j s) ∧
  (∀ (s s' t : State) (i : Instr), s.config = s'.config → exec i s = .next t →
    ∃ t', exec i s' = .next t' ∧ t'.y = t.y ∧ t'.bf = t.bf)

/-- `QNT` (42_quantize.md R101): the sign is the operand's; the magnitude passes, collapses, flushes, or is the midpoint of
its cell, saturated above `maxVal`. -/
def Obligations.QntAnswersTheClampedSnap : Prop :=
  ∀ (s : State) (a : Word), s.config.Legal →
    exec (.qnt a) s = .next { s with y := word (signOf a) (quantMag s.config (magOf a)), bf := none }

/-- `CVT.D` (41_construct.md R80, R83) with either pre-rounding: the sign is the operand's; the magnitude is
`constructMag`. Rests on the spec's decisions D6, D7, D8, D9, D18 and D20. -/
def Obligations.CvtDAnswersTheRoundedHubValue : Prop :=
  ∀ (s : State) (a : Word), s.config.Legal →
    exec (.cvtD a) s = .next { s with y := word (signOf a) (constructMag s.config (magOf a)), bf := none }

/-- `CVT.S` (41_construct.md R84): `CVT.D` of a binary64 word that denotes what the binary32 word in `a[31:0]` denotes,
a NaN's sign bit included. The kept NaN sign is the spec's decision D17. -/
def Obligations.CvtSIsCvtDOfTheExactlyWidenedOperand : Prop :=
  ∀ (s : State) (a : Word), s.config.Legal →
    ∃ d : Word, val d = val32 (BitVec.ofNat 32 (a.toNat % 2 ^ 32)) ∧
      exec (.cvtS a) s = .next { s with y := word (signOf d) (constructMag s.config (magOf d)), bf := none }

/-- The corner case of 41_construct.md R84 in the 8/23 configuration: a widened operand of class `GENERAL` is never on
the grid and never rounded, so that `CVT.S` only adds the hub bit and clamps. The spec marks this corner case as
derived. -/
def Obligations.CvtSOnlyAddsTheHubBit : Prop :=
  ∀ (s : State) (a : Word), s.config.Legal → s.config.preRound = .binary32 →
    classOf s.config (widen (operand32 a)) = .general →
    ¬ onGrid s.config (widen (operand32 a)) ∧
    exec (.cvtS a) s = .next { s with y := clamp s.config (widen (operand32 a) ||| s.config.hubBit), bf := none }

/-- `CVT.W` (41_construct.md R85): `CVT.D` of the binary64 word that is exactly the two's complement integer in
`a[INT_WIDTH-1:0]`, `+0` for zero. The width, the signedness and the method are the spec's decision D10. -/
def Obligations.CvtWIsCvtDOfTheExactInteger : Prop :=
  ∀ (s : State) (a : Word), s.config.Legal →
    ∃ d : Word,
      val d = .finite (if twosComplement s.config.intWidth a < 0 then 1 else 0)
        ((twosComplement s.config.intWidth a).natAbs : ℚ) ∧
      exec (.cvtW a) s = .next { s with y := word (signOf d) (constructMag s.config (magOf d)), bf := none }

/-- `DEC` (41_construct.md R86, R87; 30_encoding.md R52, R53): the three reserved code points exactly, every other code by
the general decoding; no rounding, no clamp. -/
def Obligations.DecAnswersTheDecodedCode : Prop :=
  ∀ (s : State) (a : Word), s.config.Legal →
    let c := s.config
    exec (.dec a) s = .next { s with
      y := word (codeS c a)
        (if codeE c a = 0 ∧ codeF c a = 0 then 0
         else if codeE c a = 2 ^ (c.expBits - 1) ∧ codeF c a = 0 then oneMag
         else if codeE c a = 2 ^ c.expBits - 1 ∧ codeF c a = 2 ^ c.mantBits - 1 then infMag
         else codeMag c (codeE c a) (codeF c a)),
      bf := none }

/-- Every code that is not reserved denotes the midpoint value of 30_encoding.md R54; for 8/23, `(-1)^s * 2^(e-128) * (1
+ f*2^-23 + 2^-24)`. The bias is the spec's decision D3; the spec marks the rule as derived. -/
def Obligations.GeneralCodesDenoteMidpoints : Prop :=
  (∀ (c : Config) (u : Nat), c.Legal → u < 2 ^ c.codeBits → ¬ isReservedCode c u →
    val (decodeCode c u) = .finite (codeSign c u)
      ((2 : ℚ) ^ ((codeExp c u : Int) - 2 ^ (c.expBits - 1)) *
        (1 + (codeFrac c u : ℚ) / 2 ^ c.mantBits + 1 / 2 ^ (c.mantBits + 1)))) ∧
  (∀ u : Nat, u < 2 ^ 32 → ¬ isReservedCode Config.build823 u →
    val (decodeCode Config.build823 u) = .finite (codeSign Config.build823 u)
      ((2 : ℚ) ^ ((u / 2 ^ 23 % 2 ^ 8 : Nat) - 128 : Int) *
        (1 + ((u % 2 ^ 23 : Nat) : ℚ) * (2 : ℚ) ^ (-23 : Int) + (2 : ℚ) ^ (-24 : Int))))

/-- `XBF` (44_extract_format.md R120, R121, R128): the record's fields for every operand word. The open bit of
`c_frac_hub` for zero, one and infinity, and the open `c_exp` of a word whose rebased exponent is out of range, are
constrained by their widths only. The response word is `ENC` of the same record. The open values are the spec's
decisions D12 and D13 (log entries 5 and 6). -/
def Obligations.XbfAnswersTheFields : Prop :=
  ∀ (s : State) (a : Word), s.config.Legal →
    let c := s.config
    let diff := c.biasDiff
    ∃ b : BitFields,
      exec (.xbf a) s = .next { s with
        y := BitVec.ofNat 64 ((b.sign.toNat * 2 ^ c.expBits + b.cExp) * 2 ^ c.mantBits + b.cFrac), bf := some b } ∧
      b.sign.toNat = a.toNat / 2 ^ 63 ∧ b.nativeExp.toNat = a.toNat / 2 ^ 52 % 2 ^ 11 ∧
      b.nativeFrac.toNat = a.toNat % 2 ^ 52 ∧
      b.cExp < 2 ^ c.expBits ∧
      (magOf a = 0 → b.cExp = 0 ∧ b.cFrac = 0 ∧ b.cFracHub / 2 = 0) ∧
      (magOf a = oneMag → b.cExp = 2 ^ (c.expBits - 1) ∧ b.cFrac = 0 ∧ b.cFracHub / 2 = 0) ∧
      (magOf a = infMag → b.cExp = 2 ^ c.expBits - 1 ∧ b.cFrac = 2 ^ c.mantBits - 1 ∧
        b.cFracHub / 2 = 2 ^ c.mantBits - 1) ∧
      (magOf a ≠ 0 → magOf a ≠ oneMag → magOf a ≠ infMag →
        b.cFrac = a.toNat % 2 ^ 52 / 2 ^ (52 - c.mantBits) ∧ b.cFracHub = a.toNat % 2 ^ 52 / 2 ^ (51 - c.mantBits) ∧
        (diff ≤ a.toNat / 2 ^ 52 % 2 ^ 11 → a.toNat / 2 ^ 52 % 2 ^ 11 - diff ≤ 2 ^ c.expBits - 1 →
          b.cExp = a.toNat / 2 ^ 52 % 2 ^ 11 - diff))

/-- `ENC` (44_extract_format.md R122): the packed code of the record `XBF` gives for the same operand, zero-extended.
Where the rebased exponent is out of range, that both draw the same open value is log entry 6. -/
def Obligations.EncPacksTheFields : Prop :=
  ∀ (s : State) (a : Word), s.config.Legal →
    ∃ b : BitFields, ∃ t : State, exec (.xbf a) s = .next t ∧ t.bf = some b ∧
      exec (.enc a) s = .next { s with
        y := BitVec.ofNat 64 ((b.sign.toNat * 2 ^ s.config.expBits + b.cExp) * 2 ^ s.config.mantBits + b.cFrac),
        bf := none }

/-- `RD.D` (44_extract_format.md R123): the result is the operand word unchanged. -/
def Obligations.RdDAnswersItsOperand : Prop :=
  ∀ (s : State) (a : Word), s.config.Legal → exec (.rdD a) s = .next { s with y := a, bf := none }

/-- The operand formats of 30_encoding.md R57: two words that agree on an operation's operand get the same answer, and a
compact code result has no bit from position `N` up. The ignored bits are the spec's decision D11. That the code of a
word whose rebased exponent is out of range has none either is log entry 6. -/
def Obligations.BitsAboveTheOperandAreIgnored : Prop :=
  ∀ (s : State) (a b : Word),
    (a.toNat % 2 ^ 32 = b.toNat % 2 ^ 32 → exec (.cvtS a) s = exec (.cvtS b) s) ∧
    (a.toNat % 2 ^ s.config.intWidth = b.toNat % 2 ^ s.config.intWidth → exec (.cvtW a) s = exec (.cvtW b) s) ∧
    (a.toNat % 2 ^ s.config.codeBits = b.toNat % 2 ^ s.config.codeBits → exec (.dec a) s = exec (.dec b) s) ∧
    (∀ t : State, exec (.enc a) s = .next t ∨ exec (.xbf a) s = .next t → t.y.toNat < 2 ^ s.config.codeBits)

/-- `CLASS` (40_special_cases.md R70): `lowestVal`, one and infinity are in this order, and each class is exactly the
words of its magnitudes; so the classes are disjoint and cover every word. The integer comparisons and the class of one
are the spec's decisions D18 and D6. -/
def Obligations.ClassesPartitionTheWords : Prop :=
  ∀ c : Config, c.Legal →
    0 < lowMag c ∧ lowMag c < oneMag ∧ oneMag < infMag ∧
    ∀ d : Word,
      (classOf c d = .zero ↔ magOf d = 0) ∧ (classOf c d = .inf ↔ magOf d = infMag) ∧
      (classOf c d = .one ↔ magOf d = oneMag) ∧ (classOf c d = .nan ↔ infMag < magOf d) ∧
      (classOf c d = .tiny ↔ 0 < magOf d ∧ magOf d < lowMag c) ∧
      (classOf c d = .general ↔ lowMag c ≤ magOf d ∧ magOf d < infMag ∧ magOf d ≠ oneMag)

/-- The special handler (40_special_cases.md R71 to R74): zero, infinity and one pass through bit for bit, a NaN becomes the
infinity of its sign, a nonzero magnitude below `lowestVal` the zero of its sign, and every other word is declined, a
finite normal word. -/
def Obligations.SpecialHandlerSettlesAllButGeneralWords : Prop :=
  ∀ (c : Config) (d : Word), c.Legal →
    (magOf d = 0 ∨ magOf d = infMag ∨ magOf d = oneMag → special c d = (true, d)) ∧
    (infMag < magOf d → special c d = (true, word (signOf d) infMag)) ∧
    (0 < magOf d → magOf d < (mag c.lowestVal).toNat → special c d = (true, word (signOf d) 0)) ∧
    ((mag c.lowestVal).toNat ≤ magOf d → magOf d < infMag → magOf d ≠ oneMag →
      special c d = (false, d) ∧ 1 ≤ (nexp d).toNat ∧ (nexp d).toNat ≤ 2046)

/-- NaN collapse (40_special_cases.md R72): for `QNT`, `CVT.D` and `CVT.S` a NaN operand gives the infinity of its own
sign bit, whatever its payload. For `CVT.S` this rests on the spec's decision D17. -/
def Obligations.NaNOperandsCollapseToSignedInfinity : Prop :=
  ∀ (s : State) (a : Word), s.config.Legal →
    (infMag < magOf a →
      exec (.qnt a) s = .next { s with y := word (signOf a) infMag, bf := none } ∧
      exec (.cvtD a) s = .next { s with y := word (signOf a) infMag, bf := none }) ∧
    (255 * 2 ^ 23 < a.toNat % 2 ^ 31 →
      exec (.cvtS a) s = .next { s with y := word (a.toNat / 2 ^ 31 % 2) infMag, bf := none })

/-- Underflow (40_special_cases.md R73): for `QNT` and `CVT.D` a nonzero magnitude strictly below `lowestVal`, every
binary64 subnormal among them, gives the zero of the operand's sign; `lowestVal` itself is kept. -/
def Obligations.MagnitudesBelowLowestValFlushToSignedZero : Prop :=
  ∀ (s : State) (a : Word), s.config.Legal →
    2 ^ 52 ≤ lowMag s.config ∧
    (0 < magOf a → magOf a < lowMag s.config →
      exec (.qnt a) s = .next { s with y := word (signOf a) 0, bf := none } ∧
      exec (.cvtD a) s = .next { s with y := word (signOf a) 0, bf := none }) ∧
    (magOf a = lowMag s.config →
      exec (.qnt a) s = .next { s with y := a, bf := none } ∧ exec (.cvtD a) s = .next { s with y := a, bf := none })

/-- Saturation of construction ("An operand above `maxVal` always yields signed infinity", 41_construct.md R80 corner
cases): for `CVT.D`, on the grid or not. Rests on the spec's decisions D8 and D20. -/
def Obligations.ConstructionAboveMaxValSaturates : Prop :=
  ∀ (s : State) (a : Word), s.config.Legal → maxMag s.config < magOf a →
    exec (.cvtD a) s = .next { s with y := word (signOf a) infMag, bf := none }

/-- The value-based outcomes of 60_exceptions.md R141 and their results. For `CVT.S` and `CVT.W` the sign is that of the
word the operand is converted to; an integer is no NaN, and its magnitude is zero or at least one, so it never
underflows. Two outcomes never meet, the outcome being one value. -/
def Obligations.ValueOutcomesGiveTheirResults : Prop :=
  ∀ (s : State) (a : Word), s.config.Legal →
    (∀ o : ValueOutcome, valueOutcome s.config (.qnt a) = o →
      (o = .overflow ∨ o = .nanInput → exec (.qnt a) s = .next { s with y := word (signOf a) infMag, bf := none }) ∧
      (o = .underflow → exec (.qnt a) s = .next { s with y := word (signOf a) 0, bf := none })) ∧
    (∀ o : ValueOutcome, valueOutcome s.config (.cvtD a) = o →
      (o = .overflow ∨ o = .nanInput → exec (.cvtD a) s = .next { s with y := word (signOf a) infMag, bf := none }) ∧
      (o = .underflow → exec (.cvtD a) s = .next { s with y := word (signOf a) 0, bf := none })) ∧
    (∀ o : ValueOutcome, valueOutcome s.config (.cvtS a) = o →
      (o = .overflow ∨ o = .nanInput →
        exec (.cvtS a) s = .next { s with y := word (a.toNat / 2 ^ 31 % 2) infMag, bf := none }) ∧
      (o = .underflow → exec (.cvtS a) s = .next { s with y := word (a.toNat / 2 ^ 31 % 2) 0, bf := none })) ∧
    (∀ o : ValueOutcome, valueOutcome s.config (.cvtW a) = o →
      let sgn := if twosComplement s.config.intWidth a < 0 then 1 else 0
      o ≠ .nanInput ∧ o ≠ .underflow ∧
      (o = .overflow → exec (.cvtW a) s = .next { s with y := word sgn infMag, bf := none })) ∧
    (valueOutcome s.config (.dec a) = .reservedCode →
      ∃ t : State, exec (.dec a) s = .next t ∧ isSpecial t.y ∧ signOf t.y = codeS s.config a)

/-- The snap (42_quantize.md R100): sign, exponent and the top `MANT_BITS` fraction bits kept, the hub bit set, the bits
below it clear; the result lies in the operand's cell, above it by `HUB_BIT` units at the cell's lower edge, below it by at
most `HUB_BIT - 1` in the upper half, and equal to it on the grid; the mask form for 8/23. -/
def Obligations.SnapIsTheMidpointOfTheCell : Prop :=
  (∀ (c : Config) (d : Word), c.Legal →
    (∀ i, c.shift ≤ i → (snap c d).getLsbD i = d.getLsbD i) ∧
    (snap c d).getLsbD (c.shift - 1) = true ∧
    (∀ i, i < c.shift - 1 → (snap c d).getLsbD i = false) ∧
    (snap c d).toNat / 2 ^ c.shift = d.toNat / 2 ^ c.shift ∧
    (d.toNat % 2 ^ c.shift = 0 → (snap c d).toNat = d.toNat + c.hubBit.toNat) ∧
    (c.hubBit.toNat ≤ d.toNat % 2 ^ c.shift → (snap c d).toNat ≤ d.toNat ∧ d.toNat ≤ (snap c d).toNat + (c.hubBit.toNat - 1)) ∧
    (onGrid c d ↔ snap c d = d)) ∧
  (∀ (c : Config) (d : Word), c.Legal → c.expBits = 8 → c.mantBits = 23 →
    snap c d = (d &&& 0xFFFFFFFFF0000000) ||| 0x0000000010000000)

/-- Grid idempotence (42_quantize.md R102), for every 64-bit word: requantizing a `QNT` response changes nothing. The
extension to every word is marked as derived by the spec. -/
def Obligations.QuantizationIsIdempotent : Prop :=
  ∀ (s t : State) (a : Word), exec (.qnt a) s = .next t → exec (.qnt t.y) t = .next t

/-- When the clamp of `QNT` fires (42_quantize.md R103): for a `GENERAL` operand exactly at or above the top edge of the
cell of `maxVal`; an operand between `maxVal` and that edge gives `maxVal` with its sign; for 8/23 with the default
`maxVal` the edge is `2^127`. The spec marks the rule as derived. -/
def Obligations.QntSaturatesFromTheTopEdgeOfMaxValsCell : Prop :=
  (∀ (s : State) (a : Word), s.config.Legal → classOf s.config a = .general →
    ((mag (snap s.config a) > mag s.config.maxVal ↔ maxCellEdge s.config ≤ magOf a) ∧
     (maxCellEdge s.config ≤ magOf a →
       exec (.qnt a) s = .next { s with y := word (signOf a) infMag, bf := none }) ∧
     (maxMag s.config ≤ magOf a → magOf a < maxCellEdge s.config →
       exec (.qnt a) s = .next { s with y := word (signOf a) (maxMag s.config), bf := none }))) ∧
  maxCellEdge Config.build823 = 0x47E0000000000000

/-- The result set of `QNT` (42_quantize.md R104): a hub value for every operand; never a NaN, never a subnormal, and
off the grid only as a special value. The spec marks the rule as derived. -/
def Obligations.QntAlwaysAnswersAHubValue : Prop :=
  ∀ (s t : State) (a : Word), exec (.qnt a) s = .next t →
    isHubValue s.config t.y ∧ ¬ isNaN t.y ∧ ((nexp t.y).toNat = 0 → mag t.y = 0) ∧
    (¬ onGrid s.config t.y → isSpecial t.y)

/-- The result sets of construction (41_construct.md R88): for every operand a special value or a grid point not above
`maxVal`, never a NaN; a hub value except where `PRE_ROUND_32` rounds `nexp = 895`, `0x30000000 < nfrac <= 0x40000000`
down, and then `±0x37F0000010000000`. `DEC` answers a special value or a grid point for every code (41_construct.md
R86), and a hub value for every canonical one. The spec marks the rule as derived. -/
def Obligations.ConstructionsAnswerConstructedValues : Prop :=
  (∀ (s t : State) (i : Instr), (∃ a, i = .cvtD a ∨ i = .cvtS a ∨ i = .cvtW a) → exec i s = .next t →
    isConstructed s.config t.y ∧ ¬ isNaN t.y ∧
    (¬ isHubValue s.config t.y →
      s.config.preRound = .binary32 ∧ ∃ a, i = .cvtD a ∧ (nexp a).toNat = 895 ∧
        0x30000000 < (nfrac a).toNat ∧ (nfrac a).toNat ≤ 0x40000000 ∧ t.y = word (signOf a) 0x37F0000010000000)) ∧
  (∀ (s t : State) (a : Word), exec (.dec a) s = .next t →
    (isSpecial t.y ∨ isGridPoint s.config t.y) ∧
    (isCanonicalCode s.config (operandCode s.config a) → isHubValue s.config t.y))

/-- A constructed value below `lowestVal` (70_reset_and_hazards.md R153): with `PRE_ROUND_32`, an operand of those words
gives `±0x37F0000010000000`, a grid point below `lowestVal` whose code is that of zero, which `RD.D` reads back
unchanged and `QNT` flushes. The spec marks the rule as derived. -/
def Obligations.ConstructionCanFallBelowLowestVal : Prop :=
  ∀ (s : State) (a : Word), s.config.Legal → s.config.preRound = .binary32 →
    (nexp a).toNat = 895 → 0x30000000 < (nfrac a).toNat → (nfrac a).toNat ≤ 0x40000000 →
    let w := word (signOf a) 0x37F0000010000000
    exec (.cvtD a) s = .next { s with y := w, bf := none } ∧
    onGrid s.config w ∧ mag w < mag s.config.lowestVal ∧
    exec (.enc w) s = .next { s with y := BitVec.ofNat 64 (signOf a * 2 ^ 31), bf := none } ∧
    exec (.rdD w) s = .next { s with y := w, bf := none } ∧
    exec (.qnt w) s = .next { s with y := word (signOf a) 0, bf := none }

/-- Code to value to code (44_extract_format.md R127, first part): for every `N`-bit code, with no exception, packing
the decoded value gives the code back. The spec marks the rule as derived. -/
def Obligations.EveryCodeRoundTrips : Prop :=
  ∀ (s t : State) (a : Word), a.toNat < 2 ^ s.config.codeBits → exec (.dec a) s = .next t →
    exec (.enc t.y) t = .next { t with y := a, bf := none }

/-- Value to code to value (44_extract_format.md R127, second part; 70_reset_and_hazards.md R152): every hub value but
the two grid points that alias one comes back. The spec marks both rules as derived. -/
def Obligations.HubValuesRoundTripExceptTheUnityAlias : Prop :=
  ∀ (s t : State) (v : Word), isHubValue s.config v → exec (.enc v) s = .next t →
    ((∀ g, v ≠ unityAlias s.config g) → exec (.dec t.y) t = .next { t with y := v, bf := none }) ∧
    (∀ g, v = unityAlias s.config g → exec (.dec t.y) t = .next { t with y := signedOne g, bf := none })

/-- Unity aliasing (70_reset_and_hazards.md R152): `±1.0` and the grid point of the cell that starts there are different
hub values with the same code; `QNT` of every word strictly between `1` and `1 + 2^-MANT_BITS` is that grid point. The
spec marks the rule as derived. -/
def Obligations.UnitySharesItsCode : Prop :=
  ∀ (s : State) (g : BitVec 1), s.config.Legal →
    isHubValue s.config (signedOne g) ∧ isHubValue s.config (unityAlias s.config g) ∧
    signedOne g ≠ unityAlias s.config g ∧ exec (.enc (signedOne g)) s = exec (.enc (unityAlias s.config g)) s ∧
    ∀ a : Word, sign a = g → oneMag < magOf a → magOf a < oneMag + 2 ^ s.config.shift →
      exec (.qnt a) s = .next { s with y := unityAlias s.config g, bf := none }

/-- Non-canonical codes (70_reset_and_hazards.md R154; 30_encoding.md R55) under the default reading of `maxVal`: a code
with the exponent field all-ones and the fraction not all-ones decodes to a finite grid point above `maxVal`, which is
no hub value, survives `ENC` and `RD.D`, and becomes signed infinity through `QNT`. The spec marks the rule as derived.
-/
def Obligations.StrayAllOnesCodesDecodeAboveMaxVal : Prop :=
  ∀ (s t : State) (a : Word),
    s.config.maxvalExpField = 2 ^ s.config.expBits - 2 → s.config.maxvalFracField = 2 ^ s.config.mantBits - 1 →
    a.toNat < 2 ^ s.config.codeBits → codeE s.config a = 2 ^ s.config.expBits - 1 →
    codeF s.config a ≠ 2 ^ s.config.mantBits - 1 → exec (.dec a) s = .next t →
    isGridPoint s.config t.y ∧ mag s.config.maxVal < mag t.y ∧ ¬ isHubValue s.config t.y ∧
    exec (.enc t.y) t = .next { t with y := a, bf := none } ∧ exec (.rdD t.y) t = .next t ∧
    exec (.qnt t.y) t = .next { t with y := word (codeS s.config a) infMag, bf := none }

/-- Canonical codes (30_encoding.md R55): the results of `ENC` on hub values are the reserved codes and the general
codes whose value lies in `[lowestVal, maxVal]` in magnitude; under the default `maxVal` the other codes are exactly
those with the exponent field all-ones and the fraction not all-ones. The spec marks the rule as derived; the legal
`maxVal` fields are log entry 1. -/
def Obligations.CanonicalCodesAreTheReservedAndInRangeCodes : Prop :=
  ∀ (c : Config) (u : Nat), c.Legal → u < 2 ^ c.codeBits →
    (isCanonicalCode c u ↔ isReservedCode c u ∨ inRange c (decodeCode c u)) ∧
    (c.maxvalExpField = 2 ^ c.expBits - 2 → c.maxvalFracField = 2 ^ c.mantBits - 1 →
      (¬ isCanonicalCode c u ↔ codeExp c u = 2 ^ c.expBits - 1 ∧ codeFrac c u ≠ 2 ^ c.mantBits - 1))

/-- Magnitude order (00_scope.md R11): for two words that are not NaNs, the magnitudes compare as the numbers `mag` do.
The spec gives the rule as general knowledge (G1, decision D18). -/
def Obligations.MagnitudesOrderAsIntegers : Prop :=
  ∀ a b : Word, magOf a ≤ infMag → magOf b ≤ infMag →
    ((val a).magLt (val b) ↔ magOf a < magOf b) ∧
    (¬ (val a).magLt (val b) ∧ ¬ (val b).magLt (val a) ↔ magOf a = magOf b)

/-- Construction keeps what quantization gives (70_reset_and_hazards.md R156): `CVT.D(QNT(a)) = QNT(a)` always, while
`QNT(CVT.D(a))` is not always `QNT(a)`. The spec marks the rule as derived. -/
def Obligations.ConstructionKeepsQuantizedValues : Prop :=
  (∀ (s t : State) (a : Word), exec (.qnt a) s = .next t → exec (.cvtD t.y) t = .next t) ∧
  (∃ (a : Word) (t t' u : State), exec (.qnt a) State.reset = .next t ∧ exec (.cvtD a) State.reset = .next t' ∧
    exec (.qnt t'.y) t' = .next u ∧ u.y.toNat = t.y.toNat + 2 ^ State.reset.config.shift)

/-- Where the two roundings agree (41_construct.md R80 corner cases): outside the coarse binary32 range and below the top
edge of the cell of `maxVal`, `CVT.D` and `QNT` of a `GENERAL` operand answer the same exactly when the operand lies in the
lower half of its cell or on the grid point. -/
def Obligations.CvtDAndQntAgreeInTheLowerHalfCell : Prop :=
  ∀ (s : State) (a : Word), s.config.Legal → (s.config.preRound = .mantBits ∨ 897 ≤ (nexp a).toNat) →
    classOf s.config a = .general → magOf a < maxCellEdge s.config →
    (exec (.cvtD a) s = exec (.qnt a) s ↔ magOf a % 2 ^ s.config.shift ≤ s.config.hubBit.toNat)

/-- Legal parameters are well formed (00_scope.md R8): every exponent field rebases to a binary64 normal exponent,
`SHIFT` is at least one, the smallest value has a code, and one has a code point distinct from zero and all-ones. The
bounds are the spec's decision D4. -/
def Obligations.LegalParametersAreWellFormed : Prop :=
  ∀ c : Config, c.Legal →
    (∀ e, e ≤ c.customMaxExp → 1 ≤ e + c.biasDiff ∧ e + c.biasDiff ≤ 2046) ∧ 1 ≤ c.shift ∧
    c.hubBit.toNat = 2 ^ (c.shift - 1) ∧ 1 ≤ ones c.mantBits ∧
    0 < 2 ^ (c.expBits - 1) ∧ 2 ^ (c.expBits - 1) < c.customMaxExp

/-- The three derived constants (10_state.md R22, R23): their bit patterns by the fields; `minVal` is `maxVal` with bit
63 set; `maxVal` is a grid point; the named specials are hub values. `maxVal`'s pattern is the spec's decision D5, the
named specials its decision D19; the legal `maxVal` fields are log entry 1. -/
def Obligations.DerivedConstantsAreHubValues : Prop :=
  ∀ c : Config, c.Legal →
    c.lowestVal.toNat = lowMag c ∧ c.maxVal.toNat = maxMag c ∧ c.minVal.toNat = 2 ^ 63 + maxMag c ∧
    isGridPoint c c.maxVal ∧ ∀ v ∈ namedSpecials c, isHubValue c v

/-- Arithmetic closure (43_arithmetic.md R110; 42_quantize.md R104): whatever the native operations return, each contract
operation answers a hub value, never a NaN. -/
def Obligations.ContractArithmeticIsClosed : Prop :=
  ∀ (c : Config) (A : Arith) (op : BinOp) (x y z : Word), c.Legal →
    isHubValue c (contractBin c A op x y) ∧ isHubValue c (compoundAssign c A op x y) ∧ isHubValue c (contractSqrt c A x) ∧
    ∀ w, contractFma c A x y z = .ok w → isHubValue c w ∧ ¬ isNaN w

/-- `FMA` (43_arithmetic.md R113): where the contract gives a value it is the value under every admissible correction
function; it gives none exactly in 8/23 with all bits below the hub bit of the native result zero; and it must give none
there, two admissible functions disagreeing. The open correction is the spec's decision D14 (log entry 10). -/
def Obligations.FmaAnswersWhateverTheCorrection : Prop :=
  ∀ (c : Config) (A : Arith) (x y z : Word), c.Legal →
    (∀ w, contractFma c A x y z = .ok w →
      ∀ F : FmaCorrect, F.Admissible c → contractFmaWith c A F x y z = w) ∧
    (contractFma c A x y z = .error .fmaCorrectionOpen ↔
      c.expBits = 8 ∧ c.mantBits = 23 ∧ (A.fma64 x y z).toNat % 2 ^ 28 = 0) ∧
    (contractFma c A x y z = .error .fmaCorrectionOpen →
      ∃ F G : FmaCorrect, F.Admissible c ∧ G.Admissible c ∧ contractFmaWith c A F x y z ≠ contractFmaWith c A G x y z)

/-- The source's second example (43_arithmetic.md R110; 95_test_vectors.md 1.2): one plus one is `0x4000000010000000`,
whose code is the general code `0x40800000`, not the unity code. The native sum is IEEE arithmetic (log entry 9). -/
def Obligations.OnePlusOneIsTheGeneralTwo : Prop :=
  contractBin Config.build823 ieeeArith .add ONE ONE = 0x4000000010000000 ∧
  encodeValue Config.build823 0x4000000010000000 = 0x40800000

/-- Natively generated NaNs (43_arithmetic.md R110, R112, R113, U4). Whatever the native operations are, a native result
that is a NaN becomes the infinity of that NaN's sign bit; `FMA` where it has a value. IEEE arithmetic (log entry 9)
generates one for infinities that cancel, for zero times infinity, zero by zero, infinity by infinity, for the square root
of every negative nonzero word, and for the same products and sums inside `fma`, with every sign and in every order; the
NaN's sign stays open. -/
def Obligations.NativeNaNsBecomeInfinities : Prop :=
  (∀ (c : Config) (A : Arith),
    (∀ (op : BinOp) (x y : Word), isNaN (nativeBin A op x y) →
      contractBin c A op x y = signedInf (sign (nativeBin A op x y))) ∧
    (∀ x : Word, isNaN (A.sqrt64 x) → contractSqrt c A x = signedInf (sign (A.sqrt64 x))) ∧
    (∀ x y z w : Word, isNaN (A.fma64 x y z) → contractFma c A x y z = .ok w → w = signedInf (sign (A.fma64 x y z)))) ∧
  (∀ x y : Word, mag x = mag PINF → mag y = mag PINF →
    (sign x = sign y → isNaN (nativeBin ieeeArith .sub x y)) ∧
    (sign x ≠ sign y → isNaN (nativeBin ieeeArith .add x y)) ∧
    isNaN (nativeBin ieeeArith .div x y)) ∧
  (∀ x y : Word, mag x = 0 → mag y = mag PINF →
    isNaN (nativeBin ieeeArith .mul x y) ∧ isNaN (nativeBin ieeeArith .mul y x) ∧
    ∀ z : Word, isNaN (ieeeArith.fma64 x y z) ∧ isNaN (ieeeArith.fma64 y x z)) ∧
  (∀ x y : Word, mag x = 0 → mag y = 0 → isNaN (nativeBin ieeeArith .div x y)) ∧
  (∀ x : Word, sign x = 1 → mag x ≠ 0 → isNaN (ieeeArith.sqrt64 x)) ∧
  (∀ x y z : Word, mag x = mag PINF → mag y ≠ 0 → mag z = mag PINF → sign z ≠ sign x ^^^ sign y →
    isNaN (ieeeArith.fma64 x y z) ∧ isNaN (ieeeArith.fma64 y x z))

/-- The renderings (44_extract_format.md R124, R125): `toBinaryString` is one sign digit, `EXP_BITS` digits and
`MANT_BITS + 1` digits, separated by bars; `toHexString` is `0x` and `ceil(N/4)` digits; read back as numbers they are
the record's fields and the code. The open values are those of log entries 5 and 6. -/
def Obligations.RenderingsReadBackAsFieldsAndCode : Prop :=
  ∀ (c : Config) (v : Word), c.Legal →
    (∃ s e f : List Char, toBinaryChars c v = s ++ '|' :: e ++ '|' :: f ∧
      s.length = 1 ∧ e.length = c.expBits ∧ f.length = c.mantBits + 1 ∧
      (∀ ch ∈ s ++ e ++ f, ch = '0' ∨ ch = '1') ∧
      readDigits 1 s = (extractFields c v).sign.toNat ∧ readDigits 1 e = (extractFields c v).cExp ∧
      readDigits 1 f = (extractFields c v).cFracHub) ∧
    (∃ h : List Char, toHexChars c v = '0' :: 'x' :: h ∧ 4 * h.length < c.codeBits + 4 ∧ c.codeBits ≤ 4 * h.length ∧
      (∀ ch ∈ h, ch ∈ ['0', '1', '2', '3', '4', '5', '6', '7', '8', '9', 'A', 'B', 'C', 'D', 'E', 'F']) ∧
      readDigits 4 h = (encodeValue c v).toNat)
end

