-- ==== Sys2Proof/Laws/Bits.lean ====
section
/-! SUPPORT. The fields of a word as numbers, and the words put together from fields. -/

namespace Sys2Proof.Machine

theorem slice_eq (n lo len : Nat) : slice n lo len = n / 2 ^ lo % 2 ^ len := by
  simp [slice, Nat.shiftRight_eq_div_pow]

theorem slice_lt (n lo len : Nat) : slice n lo len < 2 ^ len := Nat.mod_lt _ (Nat.two_pow_pos len)

theorem cat_eq {hi lo len : Nat} (h : lo < 2 ^ len) : cat hi lo len = hi * 2 ^ len + lo := by
  rw [cat, ← Nat.shiftLeft_add_eq_or_of_lt h, Nat.shiftLeft_eq]

theorem sign_toNat (d : Word) : (sign d).toNat = d.toNat / 2 ^ 63 := by
  have := d.isLt
  simp [sign, BitVec.extractLsb'_toNat, Nat.shiftRight_eq_div_pow]
  omega

theorem mag_toNat (d : Word) : (mag d).toNat = d.toNat % 2 ^ 63 := by
  simp [mag, BitVec.extractLsb'_toNat]

theorem nexp_toNat (d : Word) : (nexp d).toNat = d.toNat / 2 ^ 52 % 2 ^ 11 := by
  simp [nexp, BitVec.extractLsb'_toNat, Nat.shiftRight_eq_div_pow]

theorem nfrac_toNat (d : Word) : (nfrac d).toNat = d.toNat % 2 ^ 52 := by
  simp [nfrac, BitVec.extractLsb'_toNat]

theorem ofSignMag_toNat (s : BitVec 1) (m : BitVec 63) : (ofSignMag s m).toNat = s.toNat * 2 ^ 63 + m.toNat := by
  rw [ofSignMag, BitVec.toNat_append, ← Nat.shiftLeft_add_eq_or_of_lt m.isLt, Nat.shiftLeft_eq]

theorem ofFields_toNat (s : BitVec 1) (e : BitVec 11) (f : BitVec 52) :
    (ofFields s e f).toNat = s.toNat * 2 ^ 63 + e.toNat * 2 ^ 52 + f.toNat := by
  rw [ofFields, BitVec.toNat_append, ← Nat.shiftLeft_add_eq_or_of_lt f.isLt, Nat.shiftLeft_eq,
    BitVec.toNat_append, ← Nat.shiftLeft_add_eq_or_of_lt e.isLt, Nat.shiftLeft_eq]
  omega

/-- A word is its sign and its magnitude. -/
theorem word_toNat (d : Word) : d.toNat = (sign d).toNat * 2 ^ 63 + (mag d).toNat := by
  rw [sign_toNat, mag_toNat]; omega

theorem mag_toNat_fields (d : Word) : (mag d).toNat = (nexp d).toNat * 2 ^ 52 + (nfrac d).toNat := by
  rw [mag_toNat, nexp_toNat, nfrac_toNat]; omega

theorem word_ext {a b : Word} (hs : sign a = sign b) (hm : mag a = mag b) : a = b := by
  apply BitVec.eq_of_toNat_eq
  rw [word_toNat a, word_toNat b, hs, hm]

@[simp] theorem sign_ofSignMag (s : BitVec 1) (m : BitVec 63) : sign (ofSignMag s m) = s := by
  apply BitVec.eq_of_toNat_eq
  have := m.isLt
  rw [sign_toNat, ofSignMag_toNat]; omega

@[simp] theorem mag_ofSignMag (s : BitVec 1) (m : BitVec 63) : mag (ofSignMag s m) = m := by
  apply BitVec.eq_of_toNat_eq
  have := m.isLt
  rw [mag_toNat, ofSignMag_toNat]; omega

@[simp] theorem sign_ofFields (s : BitVec 1) (e : BitVec 11) (f : BitVec 52) : sign (ofFields s e f) = s := by
  apply BitVec.eq_of_toNat_eq
  have := e.isLt; have := f.isLt
  rw [sign_toNat, ofFields_toNat]; omega

@[simp] theorem nexp_ofFields (s : BitVec 1) (e : BitVec 11) (f : BitVec 52) : nexp (ofFields s e f) = e := by
  apply BitVec.eq_of_toNat_eq
  have := e.isLt; have := f.isLt
  rw [nexp_toNat, ofFields_toNat]; omega

@[simp] theorem nfrac_ofFields (s : BitVec 1) (e : BitVec 11) (f : BitVec 52) : nfrac (ofFields s e f) = f := by
  apply BitVec.eq_of_toNat_eq
  have := e.isLt; have := f.isLt
  rw [nfrac_toNat, ofFields_toNat]; omega

theorem mag_ofFields_toNat (s : BitVec 1) (e : BitVec 11) (f : BitVec 52) :
    (mag (ofFields s e f)).toNat = e.toNat * 2 ^ 52 + f.toNat := by
  rw [mag_toNat_fields, nexp_ofFields, nfrac_ofFields]

@[simp] theorem ofSignMag_sign_mag (d : Word) : ofSignMag (sign d) (mag d) = d :=
  word_ext (sign_ofSignMag _ _) (mag_ofSignMag _ _)

@[simp] theorem mag_PINF_toNat : (mag PINF).toNat = 2047 * 2 ^ 52 := by decide
@[simp] theorem mag_ONE_toNat : (mag ONE).toNat = 1023 * 2 ^ 52 := by decide

@[simp] theorem sign_signedInf (s : BitVec 1) : sign (signedInf s) = s := sign_ofSignMag _ _
@[simp] theorem mag_signedInf (s : BitVec 1) : mag (signedInf s) = mag PINF := mag_ofSignMag _ _
@[simp] theorem sign_signedZero (s : BitVec 1) : sign (signedZero s) = s := sign_ofSignMag _ _
@[simp] theorem mag_signedZero (s : BitVec 1) : mag (signedZero s) = 0 := mag_ofSignMag _ _
@[simp] theorem sign_signedOne (s : BitVec 1) : sign (signedOne s) = s := sign_ofSignMag _ _
@[simp] theorem mag_signedOne (s : BitVec 1) : mag (signedOne s) = mag ONE := mag_ofSignMag _ _

theorem ones_eq (k : Nat) : ones k = 2 ^ k - 1 := rfl

end Sys2Proof.Machine
end

