-- ==== Sys2Proof/Laws/Constants.lean ====
section
/-! SUPPORT. The derived constants of a legal configuration as numbers, and `GDEC` as arithmetic. -/

namespace Sys2Proof

open Machine

theorem Config.build823_legal : Config.build823.Legal := by decide

theorem Config.Legal.shift_bounds {c : Config} (h : c.Legal) : 1 ≤ c.shift ∧ c.shift ≤ 51 ∧ c.mantBits + c.shift = 52 := by
  obtain ⟨_, ⟨h1, h2⟩, _⟩ := h
  unfold Config.shift
  omega

theorem Config.Legal.pow_mant_shift {c : Config} (h : c.Legal) : 2 ^ c.mantBits * 2 ^ c.shift = 2 ^ 52 := by
  rw [← Nat.pow_add, h.shift_bounds.2.2]

theorem Config.Legal.pow_shift {c : Config} (h : c.Legal) : 2 ^ c.shift = 2 * 2 ^ (c.shift - 1) := by
  obtain ⟨h1, _, _⟩ := h.shift_bounds
  rw [← Nat.pow_succ', Nat.succ_eq_add_one, Nat.sub_add_cancel h1]

theorem Config.Legal.pow_exp {c : Config} (h : c.Legal) : 2 ^ c.expBits = 2 * 2 ^ (c.expBits - 1) := by
  obtain ⟨⟨h1, _⟩, _⟩ := h
  rw [← Nat.pow_succ', Nat.succ_eq_add_one, Nat.sub_add_cancel (by omega)]

theorem Config.Legal.customBias_bounds {c : Config} (h : c.Legal) : 2 ≤ c.customBias ∧ c.customBias ≤ 512 := by
  obtain ⟨⟨h1, h2⟩, _⟩ := h
  exact ⟨Nat.pow_le_pow_right (n := 2) (i := 1) (by decide) (by omega),
    Nat.pow_le_pow_right (n := 2) (j := 9) (by decide) (by omega)⟩

theorem Config.Legal.pow_expBits {c : Config} (h : c.Legal) : 2 ^ c.expBits = 2 * c.customBias := h.pow_exp

theorem Config.Legal.biasDiff_eq {c : Config} (h : c.Legal) : c.biasDiff + c.customBias = 1023 := by
  have := h.customBias_bounds
  unfold Config.biasDiff
  omega

theorem Config.hubBit_toNat {c : Config} (h : c.Legal) : c.hubBit.toNat = 2 ^ (c.shift - 1) := by
  obtain ⟨_, h2, _⟩ := h.shift_bounds
  have : 2 ^ (c.shift - 1) < 2 ^ 64 := Nat.pow_lt_pow_right (by decide) (by omega)
  rw [Config.hubBit, BitVec.toNat_shiftLeft, Nat.shiftLeft_eq]
  simpa using Nat.mod_eq_of_lt this

theorem Config.hubBit_pos {c : Config} (h : c.Legal) : 0 < c.hubBit.toNat := by
  rw [Config.hubBit_toNat h]; exact Nat.two_pow_pos _

/-- `HUB_BIT` doubled is the width of a grid cell. -/
theorem Config.Legal.cell_width {c : Config} (h : c.Legal) : 2 ^ c.shift = 2 * c.hubBit.toNat := by
  rw [Config.hubBit_toNat h, h.pow_shift]

/-- The 52-bit fraction of `GDEC`. -/
theorem Config.gdec_fraction {c : Config} (h : c.Legal) {f : Nat} (hf : f < 2 ^ c.mantBits) :
    (f <<< c.shift) ||| c.hubBit.toNat = f * 2 ^ c.shift + c.hubBit.toNat ∧
      f * 2 ^ c.shift + c.hubBit.toNat < 2 ^ 52 := by
  have hw := h.cell_width
  have hp := Config.hubBit_pos h
  have hm := h.pow_mant_shift
  constructor
  · rw [← Nat.shiftLeft_add_eq_or_of_lt (by omega), Nat.shiftLeft_eq]
  · have : (f + 1) * 2 ^ c.shift ≤ 2 ^ c.mantBits * 2 ^ c.shift := Nat.mul_le_mul_right _ hf
    rw [Nat.add_mul, Nat.one_mul] at this
    omega

theorem Config.rebased_lt {c : Config} (h : c.Legal) {e : Nat} (he : e < 2 ^ c.expBits) :
    1 ≤ e + c.biasDiff ∧ e + c.biasDiff ≤ 2046 := by
  have := h.biasDiff_eq; have := h.customBias_bounds; have := h.pow_expBits
  omega

/-- `GDEC` as arithmetic (41_construct.md R87). -/
theorem Config.mag_gdec {c : Config} (h : c.Legal) (s : BitVec 1) {e f : Nat} (he : e < 2 ^ c.expBits)
    (hf : f < 2 ^ c.mantBits) :
    (mag (c.gdec s e f)).toNat = (e + c.biasDiff) * 2 ^ 52 + (f * 2 ^ c.shift + c.hubBit.toNat) := by
  obtain ⟨h1, h2⟩ := Config.gdec_fraction h hf
  obtain ⟨_, h3⟩ := Config.rebased_lt h he
  rw [Config.gdec, mag_ofFields_toNat, h1, BitVec.toNat_ofNat, BitVec.toNat_ofNat, Nat.mod_eq_of_lt h2,
    Nat.mod_eq_of_lt (by omega)]

@[simp] theorem Config.sign_gdec (c : Config) (s : BitVec 1) (e f : Nat) : sign (c.gdec s e f) = s := sign_ofFields _ _ _

theorem Config.nexp_gdec {c : Config} (h : c.Legal) (s : BitVec 1) {e : Nat} (f : Nat) (he : e < 2 ^ c.expBits) :
    (nexp (c.gdec s e f)).toNat = e + c.biasDiff := by
  obtain ⟨_, h3⟩ := Config.rebased_lt h he
  rw [Config.gdec, nexp_ofFields, BitVec.toNat_ofNat, Nat.mod_eq_of_lt (by omega)]

theorem Config.nfrac_gdec {c : Config} (h : c.Legal) (s : BitVec 1) (e : Nat) {f : Nat} (hf : f < 2 ^ c.mantBits) :
    (nfrac (c.gdec s e f)).toNat = f * 2 ^ c.shift + c.hubBit.toNat := by
  obtain ⟨h1, h2⟩ := Config.gdec_fraction h hf
  rw [Config.gdec, nfrac_ofFields, h1, BitVec.toNat_ofNat, Nat.mod_eq_of_lt h2]

theorem Config.Legal.one_lt_pow_mant {c : Config} (h : c.Legal) : 1 < 2 ^ c.mantBits := by
  obtain ⟨_, ⟨h1, _⟩, _⟩ := h
  exact Nat.one_lt_two_pow (by omega)

theorem Config.mag_lowestVal {c : Config} (h : c.Legal) :
    (mag c.lowestVal).toNat = c.biasDiff * 2 ^ 52 + (2 ^ c.shift + c.hubBit.toNat) := by
  rw [Config.lowestVal, Config.mag_gdec h 0 (Nat.two_pow_pos _) h.one_lt_pow_mant]
  omega

theorem Config.mag_maxVal {c : Config} (h : c.Legal) :
    (mag c.maxVal).toNat =
      (c.maxvalExpField + c.biasDiff) * 2 ^ 52 + (c.maxvalFracField * 2 ^ c.shift + c.hubBit.toNat) :=
  Config.mag_gdec h 0 h.2.2.1.2.1 h.2.2.1.2.2

/-- `minVal` is `maxVal` with the sign set (10_state.md R22). -/
theorem Config.mag_minVal (c : Config) : mag c.minVal = mag c.maxVal := by
  apply BitVec.eq_of_toNat_eq
  rw [Config.minVal, Config.maxVal, Config.gdec, Config.gdec, mag_ofFields_toNat, mag_ofFields_toNat]

theorem Config.lowestVal_pos {c : Config} (h : c.Legal) : 0 < (mag c.lowestVal).toNat := by
  have := Config.hubBit_pos h
  rw [Config.mag_lowestVal h]
  exact Nat.add_pos_right _ (Nat.add_pos_right _ this)

/-- `mag(lowestVal) < ONE` (40_special_cases.md R70). -/
theorem Config.lowestVal_lt_one {c : Config} (h : c.Legal) : (mag c.lowestVal).toNat < 1023 * 2 ^ 52 := by
  have h1 := (Config.gdec_fraction h h.one_lt_pow_mant).2
  have := h.biasDiff_eq; have := h.customBias_bounds
  rw [Config.mag_lowestVal h]
  omega

/-- One is below `maxVal`, and `maxVal` below infinity. -/
theorem Config.one_lt_maxVal {c : Config} (h : c.Legal) :
    1023 * 2 ^ 52 < (mag c.maxVal).toNat ∧ (mag c.maxVal).toNat < 2047 * 2 ^ 52 := by
  obtain ⟨h1, h2, h3⟩ := h.2.2.1
  have h1 : c.customBias ≤ c.maxvalExpField := h1
  have hf := (Config.gdec_fraction h h3).2
  have := h.biasDiff_eq; have := Config.rebased_lt h h2; have := Config.hubBit_pos h
  rw [Config.mag_maxVal h]
  omega

end Sys2Proof
end

