-- ==== Sys2Proof/Laws/SpecialCases.lean ====
section
/-! SUPPORT. `CLASS` by the magnitude, what `SPECIAL` and `CLAMP` answer, and the grid as arithmetic. -/

namespace Sys2Proof.Machine

theorem mag_lt_iff (a b : BitVec 63) : a < b ↔ a.toNat < b.toNat := BitVec.lt_def
theorem mag_le_iff (a b : BitVec 63) : a ≤ b ↔ a.toNat ≤ b.toNat := BitVec.le_def
theorem mag_eq_iff (a b : BitVec 63) : a = b ↔ a.toNat = b.toNat := BitVec.toNat_inj.symm

/-- `CLASS` as tests on the number `mag(d)`. -/
theorem classOf_eq (c : Config) (d : Word) :
    classOf c d =
      if (mag d).toNat = 0 then .zero
      else if (mag d).toNat = 2047 * 2 ^ 52 then .inf
      else if (mag d).toNat = 1023 * 2 ^ 52 then .one
      else if 2047 * 2 ^ 52 < (mag d).toNat then .nan
      else if (mag d).toNat < (mag c.lowestVal).toNat then .tiny
      else .general := by
  simp only [classOf, gt_iff_lt, mag_lt_iff, mag_eq_iff, mag_PINF_toNat, mag_ONE_toNat]
  rfl

theorem classOf_general_iff (c : Config) (d : Word) (h : c.Legal) :
    classOf c d = .general ↔
      (mag c.lowestVal).toNat ≤ (mag d).toNat ∧ (mag d).toNat < 2047 * 2 ^ 52 ∧ (mag d).toNat ≠ 1023 * 2 ^ 52 := by
  have h1 := Config.lowestVal_pos h
  rw [classOf_eq]
  split_ifs <;> simp <;> omega

/-- The special handler declines exactly the `GENERAL` words (R74). -/
theorem special_general {c : Config} {d : Word} (h : classOf c d = .general) : special c d = (false, d) := by
  simp [special, h]

/-- The special handler answers a special value of the operand's sign for every other word (R71 to R73). -/
theorem special_handled {c : Config} {d : Word} (h : classOf c d ≠ .general) :
    ∃ r, special c d = (true, r) ∧ sign r = sign d ∧ isSpecial r := by
  unfold special
  cases hc : classOf c d with
  | general => exact absurd hc h
  | nan => exact ⟨_, rfl, by simp, .inr (.inl (by simp))⟩
  | tiny => exact ⟨_, rfl, by simp, .inl (by simp)⟩
  | zero =>
    refine ⟨_, rfl, rfl, .inl ?_⟩
    rw [classOf_eq] at hc
    split_ifs at hc with h0
    simpa [mag_eq_iff] using h0
  | inf =>
    refine ⟨_, rfl, rfl, .inr (.inl ?_)⟩
    rw [classOf_eq] at hc
    split_ifs at hc with _ h0
    simpa [mag_eq_iff] using h0
  | one =>
    refine ⟨_, rfl, rfl, .inr (.inr ?_)⟩
    rw [classOf_eq] at hc
    split_ifs at hc with _ _ h0
    simpa [mag_eq_iff] using h0

/-- A special value passes through (R71). -/
theorem special_of_isSpecial {c : Config} {d : Word} (h : isSpecial d) : special c d = (true, d) := by
  have h : (mag d).toNat = 0 ∨ (mag d).toNat = 2047 * 2 ^ 52 ∨ (mag d).toNat = 1023 * 2 ^ 52 := by
    simpa only [isSpecial, mag_eq_iff, mag_PINF_toNat, mag_ONE_toNat, BitVec.ofNat_eq_ofNat, BitVec.toNat_ofNat,
      Nat.zero_mod] using h
  unfold special
  rw [classOf_eq]
  obtain h | h | h := h <;> simp [h]

theorem sign_clamp (c : Config) (x : Word) : sign (clamp c x) = sign x := by
  unfold clamp; split <;> simp

/-- `CLAMP` either keeps a word not above `maxVal`, or answers the signed infinity (R75). -/
theorem clamp_cases (c : Config) (x : Word) :
    ((mag x).toNat ≤ (mag c.maxVal).toNat ∧ clamp c x = x) ∨
      ((mag c.maxVal).toNat < (mag x).toNat ∧ clamp c x = signedInf (sign x)) := by
  unfold clamp
  split <;> rename_i h <;> rw [gt_iff_lt, mag_lt_iff] at h
  · exact .inr ⟨h, rfl⟩
  · exact .inl ⟨by omega, rfl⟩

theorem clamp_of_le {c : Config} {x : Word} (h : (mag x).toNat ≤ (mag c.maxVal).toNat) : clamp c x = x := by
  obtain ⟨_, h'⟩ | ⟨h', _⟩ := clamp_cases c x
  · exact h'
  · omega

theorem clamp_of_gt {c : Config} {x : Word} (h : (mag c.maxVal).toNat < (mag x).toNat) :
    clamp c x = signedInf (sign x) := by
  obtain ⟨h', _⟩ | ⟨_, h'⟩ := clamp_cases c x
  · omega
  · exact h'

/-- The low `SHIFT` bits of a word are those of its magnitude. -/
theorem low_eq_mag {c : Config} (h : c.Legal) (d : Word) : slice d.toNat 0 c.shift = (mag d).toNat % 2 ^ c.shift := by
  have hb := h.shift_bounds
  have hd : 2 ^ c.shift ∣ 2 ^ 63 := Nat.pow_dvd_pow 2 (by omega)
  rw [slice_eq, pow_zero, Nat.div_one, mag_toNat, Nat.mod_mod_of_dvd _ hd]

/-- The grid as arithmetic (10_state.md R21). -/
theorem onGrid_iff {c : Config} (h : c.Legal) (d : Word) :
    onGrid c d ↔ (mag d).toNat % 2 ^ c.shift = c.hubBit.toNat := by
  rw [onGrid, low_eq_mag h]

/-- Every multiple of `2^52` is a multiple of the cell width. -/
theorem pow52_mod_cell {c : Config} (h : c.Legal) (n : Nat) : n * 2 ^ 52 % 2 ^ c.shift = 0 := by
  rw [← h.pow_mant_shift, ← Nat.mul_assoc]
  exact Nat.mul_mod_left _ _

/-- No special value lies on the grid. -/
theorem not_onGrid_of_isSpecial {c : Config} (h : c.Legal) {d : Word} (hd : isSpecial d) : ¬ onGrid c d := by
  have hp := Config.hubBit_pos h
  have hs : ∃ n, (mag d).toNat = n * 2 ^ 52 := by
    simp only [isSpecial, mag_eq_iff, mag_PINF_toNat, mag_ONE_toNat] at hd
    obtain hd | hd | hd := hd
    · exact ⟨0, by simpa using hd⟩
    · exact ⟨_, hd⟩
    · exact ⟨_, hd⟩
  obtain ⟨n, hn⟩ := hs
  rw [onGrid_iff h, hn, pow52_mod_cell h]
  omega

theorem gdec_mod_cell {c : Config} (h : c.Legal) (e f : Nat) :
    ((e + c.biasDiff) * 2 ^ 52 + (f * 2 ^ c.shift + c.hubBit.toNat)) % 2 ^ c.shift = c.hubBit.toNat := by
  have hw := h.cell_width
  have hp := Config.hubBit_pos h
  rw [Nat.add_mod, pow52_mod_cell h, Nat.zero_add, Nat.mod_mod, Nat.mul_comm f, Nat.mul_add_mod]
  exact Nat.mod_eq_of_lt (by omega)

/-- `GDEC` answers a grid point (41_construct.md R87). -/
theorem gdec_isGridPoint {c : Config} (h : c.Legal) (s : BitVec 1) {e f : Nat} (he : e < 2 ^ c.expBits)
    (hf : f < 2 ^ c.mantBits) : isGridPoint c (c.gdec s e f) := by
  refine ⟨?_, ?_, ?_⟩
  · rw [Config.nexp_gdec h s f he]; exact (Config.rebased_lt h he).1
  · rw [Config.nexp_gdec h s f he]; exact (Config.rebased_lt h he).2
  · rw [onGrid_iff h, Config.mag_gdec h s he hf, gdec_mod_cell h]

end Sys2Proof.Machine
end

