-- ==== Sys2Proof/Laws/Codes.lean ====
section
/-! SUPPORT. The fields of a compact code and its packing (30_encoding.md R52), and what `DEC` and `XBF` answer
(41_construct.md R86, 44_extract_format.md R120). -/

namespace Sys2Proof.Machine

theorem codeExp_lt (c : Config) (u : Nat) : codeExp c u < 2 ^ c.expBits := slice_lt _ _ _
theorem codeFrac_lt (c : Config) (u : Nat) : codeFrac c u < 2 ^ c.mantBits := slice_lt _ _ _
theorem operandCode_lt (c : Config) (a : Word) : operandCode c a < 2 ^ c.codeBits := slice_lt _ _ _

theorem operandCode_eq (c : Config) (a : Word) : operandCode c a = a.toNat % 2 ^ c.codeBits := by
  rw [operandCode, slice_eq, pow_zero, Nat.div_one]

theorem codeSign_toNat (c : Config) (u : Nat) : (codeSign c u).toNat = u / 2 ^ (c.expBits + c.mantBits) % 2 := by
  rw [codeSign, slice_eq, BitVec.toNat_ofNat]
  omega

theorem codeExp_eq (c : Config) (u : Nat) : codeExp c u = u / 2 ^ c.mantBits % 2 ^ c.expBits := slice_eq _ _ _

theorem codeFrac_eq (c : Config) (u : Nat) : codeFrac c u = u % 2 ^ c.mantBits := by
  rw [codeFrac, slice_eq, pow_zero, Nat.div_one]

/-- The packing as arithmetic, for fields that fit (R52). -/
theorem packCode_eq (c : Config) (s : BitVec 1) {e f : Nat} (he : e < 2 ^ c.expBits) (hf : f < 2 ^ c.mantBits) :
    packCode c s e f = (s.toNat * 2 ^ c.expBits + e) * 2 ^ c.mantBits + f := by
  rw [packCode, cat_eq hf, cat_eq he]

theorem packCode_lt (c : Config) (s : BitVec 1) {e f : Nat} (he : e < 2 ^ c.expBits) (hf : f < 2 ^ c.mantBits) :
    packCode c s e f < 2 ^ c.codeBits := by
  have hs := s.isLt
  have h1 : s.toNat * 2 ^ c.expBits + e + 1 ≤ 2 * 2 ^ c.expBits := by
    have := Nat.mul_le_mul_right (2 ^ c.expBits) (Nat.succ_le_of_lt hs)
    rw [Nat.succ_mul] at this
    omega
  have h2 := Nat.mul_le_mul_right (2 ^ c.mantBits) h1
  rw [Nat.succ_mul] at h2
  rw [packCode_eq c s he hf, Config.codeBits, Nat.pow_add, Nat.pow_add, pow_one]
  omega

/-- The fields of a packed code are the fields packed (R52). -/
theorem fields_packCode (c : Config) (s : BitVec 1) {e f : Nat} (he : e < 2 ^ c.expBits) (hf : f < 2 ^ c.mantBits) :
    codeSign c (packCode c s e f) = s ∧ codeExp c (packCode c s e f) = e ∧ codeFrac c (packCode c s e f) = f := by
  have hdiv : packCode c s e f / 2 ^ c.mantBits = s.toNat * 2 ^ c.expBits + e := by
    rw [packCode_eq c s he hf, Nat.mul_comm, Nat.mul_add_div (Nat.two_pow_pos _), Nat.div_eq_of_lt hf, Nat.add_zero]
  refine ⟨?_, ?_, ?_⟩
  · apply BitVec.eq_of_toNat_eq
    have := s.isLt
    rw [codeSign_toNat, Nat.add_comm, Nat.pow_add, ← Nat.div_div_eq_div_mul, hdiv, Nat.mul_comm,
      Nat.mul_add_div (Nat.two_pow_pos _), Nat.div_eq_of_lt he]
    omega
  · rw [codeExp_eq, hdiv, Nat.mul_comm, Nat.mul_add_mod, Nat.mod_eq_of_lt he]
  · rw [codeFrac_eq, packCode_eq c s he hf, Nat.mul_comm, Nat.mul_add_mod, Nat.mod_eq_of_lt hf]

/-- A code is the packing of its fields (R52). -/
theorem packCode_fields (c : Config) {u : Nat} (hu : u < 2 ^ c.codeBits) :
    packCode c (codeSign c u) (codeExp c u) (codeFrac c u) = u := by
  rw [packCode_eq c _ (codeExp_lt c u) (codeFrac_lt c u), codeSign_toNat, codeExp_eq, codeFrac_eq]
  rw [Config.codeBits, Nat.add_assoc, Nat.pow_add, pow_one] at hu
  have h1 : u / 2 ^ (c.expBits + c.mantBits) % 2 = u / 2 ^ c.mantBits / 2 ^ c.expBits := by
    rw [Nat.mod_eq_of_lt (Nat.div_lt_of_lt_mul (Nat.mul_comm 2 _ ▸ hu)), Nat.div_div_eq_div_mul, ← Nat.pow_add,
      Nat.add_comm]
  have h2 := Nat.div_add_mod (u / 2 ^ c.mantBits) (2 ^ c.expBits)
  have h3 := Nat.div_add_mod u (2 ^ c.mantBits)
  rw [h1, Nat.mul_comm (u / 2 ^ c.mantBits / 2 ^ c.expBits), h2, Nat.mul_comm, h3]

theorem codeBits_le {c : Config} (h : c.Legal) : c.codeBits ≤ 64 := by
  obtain ⟨⟨_, h1⟩, ⟨_, h2⟩, _⟩ := h
  unfold Config.codeBits
  omega

theorem packFields_toNat {c : Config} (h : c.Legal) {b : BitFields} (he : b.cExp < 2 ^ c.expBits)
    (hf : b.cFrac < 2 ^ c.mantBits) : (packFields c b).toNat = packCode c b.sign b.cExp b.cFrac := by
  rw [packFields, BitVec.toNat_ofNat, Nat.mod_eq_of_lt]
  exact Nat.lt_of_lt_of_le (packCode_lt c b.sign he hf) (Nat.pow_le_pow_right (by decide) (codeBits_le h))

/-- What `DEC` answers (R86): one of the three special values for a reserved code, the general decoding for every other
code; the sign is the code's. -/
theorem decodeCode_cases (c : Config) (u : Nat) :
    (codeExp c u = 0 ∧ codeFrac c u = 0 ∧ decodeCode c u = signedZero (codeSign c u)) ∨
    (codeExp c u = 2 ^ (c.expBits - 1) ∧ codeFrac c u = 0 ∧ decodeCode c u = signedOne (codeSign c u)) ∨
    (codeExp c u = ones c.expBits ∧ codeFrac c u = ones c.mantBits ∧ decodeCode c u = signedInf (codeSign c u)) ∨
    (¬ isReservedCode c u ∧ decodeCode c u = c.gdec (codeSign c u) (codeExp c u) (codeFrac c u)) := by
  simp only [decodeCode, isReservedCode]
  split_ifs with h1 h2 h3
  · exact .inl ⟨h1.1, h1.2, rfl⟩
  · exact .inr (.inl ⟨h2.1, h2.2, rfl⟩)
  · exact .inr (.inr (.inl ⟨h3.1, h3.2, rfl⟩))
  · exact .inr (.inr (.inr ⟨by tauto, rfl⟩))

theorem generalCExp_lt (c : Config) (v : Word) : generalCExp c v < 2 ^ c.expBits := by
  unfold generalCExp Config.customMaxExp
  have := Nat.two_pow_pos c.expBits
  split
  · omega
  · exact Nat.mod_lt _ this

theorem openHubFraction_eq (c : Config) (v : Word) (f : Nat) :
    openHubFraction c v f = f * 2 + (c.freeHubBit v).toNat := by
  rw [openHubFraction, cat_eq (by cases c.freeHubBit v <;> decide), pow_one]

/-- The record of each operand class (R120): three reserved patterns and the general slices. -/
theorem extractFields_zero {c : Config} {v : Word} (h : mag v = 0) :
    extractFields c v = ⟨sign v, nexp v, nfrac v, 0, 0, openHubFraction c v 0⟩ := by
  rw [extractFields, if_pos h]

theorem extractFields_one {c : Config} {v : Word} (h : mag v = mag ONE) :
    extractFields c v = ⟨sign v, nexp v, nfrac v, 2 ^ (c.expBits - 1), 0, openHubFraction c v 0⟩ := by
  rw [extractFields, if_neg (h ▸ by decide), if_pos h]

theorem extractFields_inf {c : Config} {v : Word} (h : mag v = mag PINF) :
    extractFields c v =
      ⟨sign v, nexp v, nfrac v, ones c.expBits, ones c.mantBits, openHubFraction c v (ones c.mantBits)⟩ := by
  rw [extractFields, if_neg (h ▸ by decide), if_neg (h ▸ by decide), if_pos h]

theorem extractFields_general {c : Config} {v : Word} (h : ¬ isSpecial v) :
    extractFields c v = ⟨sign v, nexp v, nfrac v, generalCExp c v, slice v.toNat c.shift c.mantBits,
      slice v.toNat (c.shift - 1) (c.mantBits + 1)⟩ := by
  simp only [isSpecial, not_or] at h
  rw [extractFields, if_neg h.1, if_neg h.2.2, if_neg h.2.1]

/-- The compact fraction is a slice of the native fraction. -/
theorem slice_shift_eq {c : Config} (h : c.Legal) (v : Word) :
    slice v.toNat c.shift c.mantBits = (nfrac v).toNat / 2 ^ c.shift := by
  have hm := h.pow_mant_shift
  rw [slice_eq, nfrac_toNat, ← hm, Nat.mul_comm (2 ^ c.mantBits), Nat.mod_mul_right_div_self]

theorem slice_hub_eq {c : Config} (h : c.Legal) (v : Word) :
    slice v.toNat (c.shift - 1) (c.mantBits + 1) = (nfrac v).toNat / 2 ^ (c.shift - 1) := by
  have h1 := h.shift_bounds
  have hm : 2 ^ 52 = 2 ^ (c.shift - 1) * 2 ^ (c.mantBits + 1) := by
    rw [← Nat.pow_add]; congr 1; omega
  rw [slice_eq, nfrac_toNat, hm, Nat.mod_mul_right_div_self]

/-- Every record fits its widths, and its fraction with the hub bit is its fraction with one bit more. -/
theorem extractFields_fits {c : Config} (h : c.Legal) (v : Word) :
    (extractFields c v).sign = sign v ∧ (extractFields c v).cExp < 2 ^ c.expBits ∧
      (extractFields c v).cFrac < 2 ^ c.mantBits ∧ (extractFields c v).cFracHub < 2 ^ (c.mantBits + 1) ∧
      (extractFields c v).cFracHub / 2 = (extractFields c v).cFrac := by
  have hE := Nat.two_pow_pos c.expBits
  have hM := Nat.two_pow_pos c.mantBits
  have hb := Bool.toNat_lt (c.freeHubBit v)
  have hX := h.pow_exp
  have hB := Nat.two_pow_pos (c.expBits - 1)
  by_cases hs : isSpecial v
  · obtain h1 | h1 | h1 := hs
    · rw [extractFields_zero h1]; simp only [openHubFraction_eq, Nat.pow_succ]; refine ⟨trivial, ?_, ?_, ?_, ?_⟩ <;> omega
    · rw [extractFields_inf h1]
      simp only [openHubFraction_eq, Nat.pow_succ, ones]
      refine ⟨trivial, ?_, ?_, ?_, ?_⟩ <;> omega
    · rw [extractFields_one h1]; simp only [openHubFraction_eq, Nat.pow_succ]; refine ⟨trivial, ?_, ?_, ?_, ?_⟩ <;> omega
  · rw [extractFields_general hs]
    refine ⟨rfl, generalCExp_lt c v, slice_lt _ _ _, slice_lt _ _ _, ?_⟩
    rw [slice_hub_eq h, slice_shift_eq h, Nat.div_div_eq_div_mul, ← Nat.pow_succ, Nat.succ_eq_add_one,
      Nat.sub_add_cancel h.shift_bounds.1]

theorem encodeValue_toNat {c : Config} (h : c.Legal) (v : Word) :
    (encodeValue c v).toNat = packCode c (sign v) (extractFields c v).cExp (extractFields c v).cFrac := by
  obtain ⟨h1, h2, h3, _⟩ := extractFields_fits h v
  rw [encodeValue, packFields_toNat h h2 h3, h1]

/-- A general decoding is no special value. -/
theorem gdec_not_isSpecial {c : Config} (h : c.Legal) (s : BitVec 1) {e f : Nat} (he : e < 2 ^ c.expBits)
    (hf : f < 2 ^ c.mantBits) : ¬ isSpecial (c.gdec s e f) :=
  fun hs => not_onGrid_of_isSpecial h hs (gdec_isGridPoint h s he hf).2.2

/-- `XBF` inverts `GDEC` field by field (44_extract_format.md R120). -/
theorem extractFields_gdec {c : Config} (h : c.Legal) (s : BitVec 1) {e f : Nat} (he : e < 2 ^ c.expBits)
    (hf : f < 2 ^ c.mantBits) :
    (extractFields c (c.gdec s e f)).cExp = e ∧ (extractFields c (c.gdec s e f)).cFrac = f := by
  have hb := Config.hubBit_pos h
  have hw := h.cell_width
  rw [extractFields_general (gdec_not_isSpecial h s he hf)]
  constructor
  · show generalCExp _ _ = _
    rw [generalCExp, Config.nexp_gdec h s f he, if_pos]
    · omega
    · unfold Config.customMaxExp; omega
  · show slice _ _ _ = _
    rw [slice_shift_eq h, Config.nfrac_gdec h s e hf, Nat.mul_comm, Nat.mul_add_div (Nat.two_pow_pos _),
      Nat.div_eq_of_lt (by omega), Nat.add_zero]

theorem encodeValue_gdec {c : Config} (h : c.Legal) (s : BitVec 1) {e f : Nat} (he : e < 2 ^ c.expBits)
    (hf : f < 2 ^ c.mantBits) : (encodeValue c (c.gdec s e f)).toNat = packCode c s e f := by
  obtain ⟨h1, h2⟩ := extractFields_gdec h s he hf
  rw [encodeValue_toNat h, h1, h2, Config.sign_gdec]

/-- General decodings are ordered as their fields. -/
theorem gdec_mag_le_iff {c : Config} (h : c.Legal) {s t : BitVec 1} {e f e' f' : Nat} (he : e < 2 ^ c.expBits)
    (hf : f < 2 ^ c.mantBits) (he' : e' < 2 ^ c.expBits) (hf' : f' < 2 ^ c.mantBits) :
    (mag (c.gdec s e f)).toNat ≤ (mag (c.gdec t e' f')).toNat ↔ e < e' ∨ (e = e' ∧ f ≤ f') := by
  have h1 := (Config.gdec_fraction h hf).2
  have h2 := (Config.gdec_fraction h hf').2
  rw [Config.mag_gdec h _ he hf, Config.mag_gdec h _ he' hf']
  constructor
  · intro hle
    by_cases hlt : e < e'
    · exact .inl hlt
    · have heq : e = e' := by
        by_contra hne
        have : (e' + c.biasDiff + 1) * 2 ^ 52 ≤ (e + c.biasDiff) * 2 ^ 52 := Nat.mul_le_mul_right _ (by omega)
        omega
      subst heq
      exact .inr ⟨rfl, Nat.le_of_mul_le_mul_right (by omega) (Nat.two_pow_pos c.shift)⟩
  · rintro (hlt | ⟨rfl, hle⟩)
    · have : (e + c.biasDiff + 1) * 2 ^ 52 ≤ (e' + c.biasDiff) * 2 ^ 52 := Nat.mul_le_mul_right _ (by omega)
      omega
    · have := Nat.mul_le_mul_right (2 ^ c.shift) hle
      omega

/-- A grid point whose exponent rebases into range is a general decoding. -/
theorem gridPoint_eq_gdec {c : Config} (h : c.Legal) {v : Word} (hg : isGridPoint c v)
    (hlo : c.biasDiff * 2 ^ 52 ≤ (mag v).toNat) (hhi : (mag v).toNat < (c.biasDiff + 2 ^ c.expBits) * 2 ^ 52) :
    ∃ e f, e < 2 ^ c.expBits ∧ f < 2 ^ c.mantBits ∧ v = c.gdec (sign v) e f := by
  have hm := mag_toNat_fields v
  have hf := (nfrac v).isLt
  have h1 : c.biasDiff ≤ (nexp v).toNat := by
    by_contra hne
    have : ((nexp v).toNat + 1) * 2 ^ 52 ≤ c.biasDiff * 2 ^ 52 := Nat.mul_le_mul_right _ (by omega)
    omega
  have h2 : (nexp v).toNat < c.biasDiff + 2 ^ c.expBits := by
    by_contra hne
    have : (c.biasDiff + 2 ^ c.expBits) * 2 ^ 52 ≤ (nexp v).toNat * 2 ^ 52 := Nat.mul_le_mul_right _ (by omega)
    omega
  have h3 : (nfrac v).toNat / 2 ^ c.shift < 2 ^ c.mantBits := by
    rw [Nat.div_lt_iff_lt_mul (Nat.two_pow_pos _), h.pow_mant_shift]
    exact hf
  refine ⟨(nexp v).toNat - c.biasDiff, (nfrac v).toNat / 2 ^ c.shift, by omega, h3, word_ext (by simp) ?_⟩
  have hgr := (onGrid_iff h v).1 hg.2.2
  rw [hm, Nat.add_mod, pow52_mod_cell h, Nat.zero_add, Nat.mod_mod] at hgr
  have hd := Nat.div_add_mod (nfrac v).toNat (2 ^ c.shift)
  rw [hgr, Nat.mul_comm] at hd
  apply BitVec.eq_of_toNat_eq
  rw [Config.mag_gdec h _ (by omega) h3, hm, hd]
  congr 2
  omega

/-- A grid point in range is a general decoding (10_state.md R21 (b)). -/
theorem inRange_eq_gdec {c : Config} (h : c.Legal) {v : Word} (hg : isGridPoint c v) (hr : inRange c v) :
    ∃ e f, e < 2 ^ c.expBits ∧ f < 2 ^ c.mantBits ∧ v = c.gdec (sign v) e f := by
  have h1 := (mag_le_iff _ _).1 hr.1
  have h2 := (mag_le_iff _ _).1 hr.2
  have h3 := (Config.gdec_fraction h h.2.2.1.2.2).2
  have h4 := h.2.2.1.2.1
  rw [Config.mag_lowestVal h] at h1
  rw [Config.mag_maxVal h] at h2
  have : (c.maxvalExpField + c.biasDiff + 1) * 2 ^ 52 ≤ (c.biasDiff + 2 ^ c.expBits) * 2 ^ 52 :=
    Nat.mul_le_mul_right _ (by omega)
  have hlo : c.biasDiff * 2 ^ 52 ≤ (mag v).toNat := Nat.le_trans (Nat.le_add_right _ _) h1
  exact gridPoint_eq_gdec h hg hlo (by omega)

/-- The hub value that aliases one is the general decoding of the unity code (70_reset_and_hazards.md R152). -/
theorem unityAlias_eq_gdec {c : Config} (h : c.Legal) (g : BitVec 1) :
    unityAlias c g = c.gdec g (2 ^ (c.expBits - 1)) 0 := by
  have hb : c.biasDiff + 2 ^ (c.expBits - 1) = 1023 := h.biasDiff_eq
  have hx := h.pow_exp
  have hp := Nat.two_pow_pos (c.expBits - 1)
  have hs := h.shift_bounds
  have hlt : c.hubBit.toNat < 2 ^ 52 := by
    rw [Config.hubBit_toNat h]
    exact Nat.pow_lt_pow_right (a := 2) (m := c.shift - 1) (n := 52) (by decide) (by omega)
  have h1 : (signedOne g).toNat = (g.toNat * 2048 + 1023) * 2 ^ 52 := by
    rw [word_toNat, sign_signedOne, mag_signedOne, mag_ONE_toNat]
    omega
  apply BitVec.eq_of_toNat_eq
  rw [word_toNat (c.gdec _ _ _), Config.mag_gdec h _ (by omega) (Nat.two_pow_pos _), unityAlias, BitVec.toNat_or, h1,
    ← Nat.shiftLeft_eq, ← Nat.shiftLeft_add_eq_or_of_lt hlt, Nat.shiftLeft_eq, Config.sign_gdec]
  omega

end Sys2Proof.Machine
end

