-- ==== Sys2Proof/Laws/Rounding.lean ====
section
/-! SUPPORT. The snap and `QNT` as arithmetic on the magnitude (42_quantize.md R100, R101). -/

namespace Sys2Proof.Machine

theorem hubBit_testBit {c : Config} (h : c.Legal) (i : Nat) : c.hubBit.getLsbD i = decide (c.shift - 1 = i) := by
  rw [BitVec.getLsbD, Config.hubBit_toNat h, Nat.testBit_two_pow]

theorem hubMask_testBit {c : Config} (h : c.Legal) (i : Nat) :
    (c.hubBit - 1).getLsbD i = decide (i < c.shift - 1) := by
  have hp := Config.hubBit_pos h
  have hl := c.hubBit.isLt
  have : (c.hubBit - 1).toNat = 2 ^ (c.shift - 1) - 1 := by
    rw [BitVec.toNat_sub, ← Config.hubBit_toNat h]
    simp only [BitVec.ofNat_eq_ofNat, BitVec.toNat_ofNat]
    omega
  rw [BitVec.getLsbD, this, Nat.testBit_two_pow_sub_one]

/-- The snapped word bit by bit (R100): the hub bit set, the bits below it clear, the bits above it kept. -/
theorem snap_getLsbD {c : Config} (h : c.Legal) (d : Word) (i : Nat) :
    (snap c d).getLsbD i = (decide (c.shift - 1 = i) || (decide (c.shift ≤ i) && d.getLsbD i)) := by
  obtain ⟨h1, h2, _⟩ := h.shift_bounds
  simp only [snap, BitVec.getLsbD_or, BitVec.getLsbD_and, BitVec.getLsbD_not, hubBit_testBit h, hubMask_testBit h]
  by_cases hi : i < 64
  · by_cases ha : c.shift - 1 = i
    · simp [ha]
    · by_cases hb : c.shift ≤ i
      · have : ¬ i < c.shift - 1 := by omega
        simp [hi, ha, hb, this]
      · have : i < c.shift - 1 := by omega
        simp [hi, ha, hb, this]
  · rw [BitVec.getLsbD_of_ge d i (by omega)]
    simp

theorem snap_toNat {c : Config} (h : c.Legal) (d : Word) :
    (snap c d).toNat = d.toNat / 2 ^ c.shift * 2 ^ c.shift + c.hubBit.toNat := by
  have hw := h.cell_width
  have hp := Config.hubBit_pos h
  obtain ⟨h1, h2, _⟩ := h.shift_bounds
  rw [← Nat.shiftLeft_eq, Nat.shiftLeft_add_eq_or_of_lt (by omega), ← Nat.shiftRight_eq_div_pow]
  apply Nat.eq_of_testBit_eq
  intro i
  rw [← BitVec.getLsbD, snap_getLsbD h, Nat.testBit_or, ← BitVec.getLsbD, hubBit_testBit h, Nat.testBit_shiftLeft,
    Nat.testBit_shiftRight, BitVec.getLsbD]
  by_cases hb : c.shift ≤ i
  · simp [hb, Bool.or_comm]
  · simp [hb]

theorem sign_snap {c : Config} (h : c.Legal) (d : Word) : sign (snap c d) = sign d := by
  obtain ⟨h1, h2, _⟩ := h.shift_bounds
  apply BitVec.eq_of_getLsbD_eq
  intro i hi
  have h3 : ¬ c.shift - 1 = 63 + i := by omega
  have h4 : c.shift ≤ 63 + i := by omega
  simp only [sign, BitVec.getLsbD_extractLsb', snap_getLsbD h, h3, h4, decide_true, decide_false, Bool.true_and, Bool.false_or]

/-- The snapped magnitude: the midpoint of the operand's grid cell (R100). -/
theorem mag_snap {c : Config} (h : c.Legal) (d : Word) :
    (mag (snap c d)).toNat = (mag d).toNat / 2 ^ c.shift * 2 ^ c.shift + c.hubBit.toNat := by
  obtain ⟨h1, h2, _⟩ := h.shift_bounds
  have hs := word_toNat (snap c d)
  have hd := word_toNat d
  rw [sign_snap h, snap_toNat h, hd] at hs
  have hdiv : 2 ^ 63 = 2 ^ c.shift * 2 ^ (63 - c.shift) := by rw [← Nat.pow_add]; congr 1; omega
  have : ((sign d).toNat * 2 ^ 63 + (mag d).toNat) / 2 ^ c.shift * 2 ^ c.shift
      = (sign d).toNat * 2 ^ 63 + (mag d).toNat / 2 ^ c.shift * 2 ^ c.shift := by
    rw [hdiv, Nat.mul_comm (sign d).toNat, Nat.mul_assoc, Nat.mul_add_div (Nat.two_pow_pos _), Nat.add_mul]
    congr 1
    ring
  omega

/-- The snapped magnitude against the operand's own. -/
theorem mag_snap_bounds {c : Config} (h : c.Legal) (d : Word) :
    (mag d).toNat < (mag (snap c d)).toNat + c.hubBit.toNat ∧
      (mag (snap c d)).toNat ≤ (mag d).toNat + c.hubBit.toNat := by
  have hw := h.cell_width
  have h1 := Nat.div_add_mod (mag d).toNat (2 ^ c.shift)
  have h2 := Nat.mod_lt (mag d).toNat (Nat.two_pow_pos c.shift)
  rw [mag_snap h]
  rw [Nat.mul_comm] at h1
  omega

theorem snap_mod_cell {c : Config} (h : c.Legal) (d : Word) :
    (mag (snap c d)).toNat % 2 ^ c.shift = c.hubBit.toNat := by
  have hw := h.cell_width
  have hp := Config.hubBit_pos h
  rw [mag_snap h, Nat.mul_comm, Nat.mul_add_mod]
  exact Nat.mod_eq_of_lt (by omega)

theorem snap_div_cell {c : Config} (h : c.Legal) (d : Word) :
    (mag (snap c d)).toNat / 2 ^ c.shift = (mag d).toNat / 2 ^ c.shift := by
  have hw := h.cell_width
  have hp := Config.hubBit_pos h
  rw [mag_snap h, Nat.mul_comm, Nat.mul_add_div (Nat.two_pow_pos _), Nat.div_eq_of_lt (a := c.hubBit.toNat) (by omega),
    Nat.add_zero]

/-- A word on the grid is its own snap. -/
theorem snap_of_onGrid {c : Config} (h : c.Legal) {d : Word} (hd : onGrid c d) : snap c d = d := by
  apply word_ext (sign_snap h d)
  apply BitVec.eq_of_toNat_eq
  rw [onGrid_iff h] at hd
  have := Nat.div_add_mod (mag d).toNat (2 ^ c.shift)
  rw [mag_snap h, ← hd, Nat.mul_comm]
  omega

/-- The snap of a `GENERAL` word stays between `lowestVal` and infinity. -/
theorem snap_general {c : Config} (h : c.Legal) {d : Word} (hd : classOf c d = .general) :
    (mag c.lowestVal).toNat ≤ (mag (snap c d)).toNat ∧ (mag (snap c d)).toNat < 2047 * 2 ^ 52 := by
  rw [classOf_general_iff c d h] at hd
  have hw := h.cell_width
  have hp := Config.hubBit_pos h
  have hpos := Nat.two_pow_pos c.shift
  have hm := h.pow_mant_shift
  constructor
  · have hl : (mag c.lowestVal).toNat = (c.biasDiff * 2 ^ c.mantBits + 1) * 2 ^ c.shift + c.hubBit.toNat := by
      rw [Config.mag_lowestVal h, Nat.add_mul, Nat.mul_assoc, hm]; omega
    have : c.biasDiff * 2 ^ c.mantBits + 1 ≤ (mag d).toNat / 2 ^ c.shift := by
      rw [Nat.le_div_iff_mul_le hpos]
      omega
    rw [mag_snap h, hl]
    have := Nat.mul_le_mul_right (2 ^ c.shift) this
    omega
  · have : (mag d).toNat / 2 ^ c.shift < 2047 * 2 ^ c.mantBits := by
      rw [Nat.div_lt_iff_lt_mul hpos, Nat.mul_assoc, hm]
      omega
    have := Nat.mul_le_mul_right (2 ^ c.shift) (Nat.succ_le_of_lt this)
    rw [Nat.mul_assoc, hm, Nat.succ_mul] at this
    rw [mag_snap h]
    omega

/-- A word with magnitude in `[1 * 2^52, 2047 * 2^52)` is a finite normal binary64. -/
theorem normal_of_mag {v : Word} (h1 : 2 ^ 52 ≤ (mag v).toNat) (h2 : (mag v).toNat < 2047 * 2 ^ 52) :
    1 ≤ (nexp v).toNat ∧ (nexp v).toNat ≤ 2046 := by
  have := mag_toNat_fields v
  have := (nfrac v).isLt
  omega

theorem lowestVal_normal {c : Config} (h : c.Legal) : 2 ^ 52 ≤ (mag c.lowestVal).toNat := by
  have := Config.mag_lowestVal h
  have := h.biasDiff_eq
  have := h.customBias_bounds
  have := Nat.two_pow_pos c.shift
  omega

theorem snap_isGridPoint {c : Config} (h : c.Legal) {d : Word} (hd : classOf c d = .general) :
    isGridPoint c (snap c d) := by
  obtain ⟨h1, h2⟩ := snap_general h hd
  obtain ⟨h3, h4⟩ := normal_of_mag (Nat.le_trans (lowestVal_normal h) h1) h2
  exact ⟨h3, h4, (onGrid_iff h _).2 (snap_mod_cell h d)⟩

/-- `QNT` of a word that is not `GENERAL` is the handler's special value (R101 steps 1 and 2). -/
theorem quantize_handled {c : Config} {a : Word} (ha : classOf c a ≠ .general) :
    sign (quantize c a) = sign a ∧ isSpecial (quantize c a) ∧ special c a = (true, quantize c a) := by
  obtain ⟨r, hr, hs, hi⟩ := special_handled ha
  have : quantize c a = r := by simp [quantize, hr]
  rw [this]
  exact ⟨hs, hi, hr⟩

/-- `QNT` of a `GENERAL` word is the clamped snap (R101 steps 3 and 4). -/
theorem quantize_general {c : Config} {a : Word} (ha : classOf c a = .general) :
    quantize c a = clamp c (snap c a) := by
  simp [quantize, special_general ha]

theorem quantize_of_isSpecial {c : Config} {v : Word} (h : isSpecial v) : quantize c v = v := by
  simp [quantize, special_of_isSpecial h]

end Sys2Proof.Machine
end

