-- ==== Sys2Proof/Laws/Construction.lean ====
section
/-! SUPPORT. Rounding to nearest even, and the two pre-roundings as one rounding of the 63-bit magnitude (41_construct.md
R81, R82). -/

namespace Sys2Proof.Machine

theorem roundEvenShift_cases (n k : Nat) :
    roundEvenShift n k = n / 2 ^ k ∨ roundEvenShift n k = n / 2 ^ k + 1 := by
  simp only [roundEvenShift, Nat.shiftRight_eq_div_pow]
  split
  · exact .inr rfl
  · exact .inl rfl

/-- Rounding commutes with adding an even number of units. -/
theorem roundEvenShift_add (n t k : Nat) :
    roundEvenShift (t * 2 ^ (k + 1) + n) k = 2 * t + roundEvenShift n k := by
  have he : t * 2 ^ (k + 1) = 2 ^ k * (2 * t) := by rw [Nat.pow_succ]; ring
  have h1 : (t * 2 ^ (k + 1) + n) % 2 ^ k = n % 2 ^ k := by rw [he, Nat.mul_add_mod]
  have h2 : (t * 2 ^ (k + 1) + n) / 2 ^ k = 2 * t + n / 2 ^ k := by rw [he, Nat.mul_add_div (Nat.two_pow_pos _)]
  have h3 : (2 * t + n / 2 ^ k) % 2 = n / 2 ^ k % 2 := by omega
  simp only [roundEvenShift, Nat.shiftRight_eq_div_pow, h1, h2, h3]
  split_ifs <;> omega

theorem roundEvenShift_le {n k b : Nat} (h : n < b * 2 ^ k) : roundEvenShift n k ≤ b := by
  have : n / 2 ^ k < b := by rwa [Nat.div_lt_iff_lt_mul (Nat.two_pow_pos _)]
  obtain h1 | h1 := roundEvenShift_cases n k <;> omega

theorem le_roundEvenShift {n k b : Nat} (h : b * 2 ^ k ≤ n) : b ≤ roundEvenShift n k := by
  have : b ≤ n / 2 ^ k := by rwa [Nat.le_div_iff_mul_le (Nat.two_pow_pos _)]
  obtain h1 | h1 := roundEvenShift_cases n k <;> omega

theorem getLsbD_eq_mag (a : Word) {i : Nat} (h : i < 63) : a.getLsbD i = (mag a).getLsbD i := by
  simp [mag, h]

/-- `PRE_ROUND_M` rounds the magnitude of a finite word to a multiple of the cell width (R82). -/
theorem preRoundM_mag {c : Config} (h : c.Legal) {a : Word} (ha : (mag a).toNat < 2047 * 2 ^ 52) :
    sign (preRoundM c a) = sign a ∧
      (mag (preRoundM c a)).toNat = roundEvenShift (mag a).toNat c.shift * 2 ^ c.shift := by
  have hw := h.cell_width
  have hs := h.shift_bounds
  have hd := Nat.div_add_mod (mag a).toNat (2 ^ c.shift)
  rw [Nat.mul_comm] at hd
  have hle : roundEvenShift (mag a).toNat c.shift * 2 ^ c.shift ≤ 2047 * 2 ^ 52 := by
    rw [← h.pow_mant_shift, ← Nat.mul_assoc] at ha ⊢
    exact Nat.mul_le_mul_right _ (roundEvenShift_le ha)
  have hpar : a.getLsbD c.shift = true ↔ (mag a).toNat / 2 ^ c.shift % 2 = 1 := by
    rw [getLsbD_eq_mag a (by omega), BitVec.getLsbD, Nat.testBit_eq_decide_div_mod_eq, decide_eq_true_iff]
  refine ⟨sign_ofSignMag _ _, ?_⟩
  rw [preRoundM, mag_ofSignMag, BitVec.toNat_ofNat]
  simp only [hpar]
  have hr : (if (mag a).toNat % 2 ^ c.shift > c.hubBit.toNat ∨
        (mag a).toNat % 2 ^ c.shift = c.hubBit.toNat ∧ (mag a).toNat / 2 ^ c.shift % 2 = 1
      then (mag a).toNat - (mag a).toNat % 2 ^ c.shift + 2 ^ c.shift
      else (mag a).toNat - (mag a).toNat % 2 ^ c.shift) = roundEvenShift (mag a).toNat c.shift * 2 ^ c.shift := by
    simp only [roundEvenShift, Nat.shiftRight_eq_div_pow, ← Config.hubBit_toNat h]
    split_ifs
    · rw [Nat.add_mul, Nat.one_mul]; omega
    · omega
  rw [hr, Nat.mod_eq_of_lt (by omega)]

/-- `PRE_ROUND_32` rounds the magnitude of a finite word from the lowest binade of 8/23 up to a multiple of `2^29`, `2^30` or
`2^31`, and answers infinity from `2^128` up (R81). -/
theorem preRound32_mag {a : Word} (h1 : 895 ≤ (nexp a).toNat) (h2 : (mag a).toNat < 2047 * 2 ^ 52) {k : Nat}
    (hk : k = if 897 ≤ (nexp a).toNat then 29 else 926 - (nexp a).toNat) :
    sign (preRound32 a) = sign a ∧
      (mag (preRound32 a)).toNat =
        if 1151 * 2 ^ 52 ≤ roundEvenShift (mag a).toNat k * 2 ^ k then 2047 * 2 ^ 52
        else roundEvenShift (mag a).toNat k * 2 ^ k := by
  have hm := mag_toNat_fields a
  have hf := (nfrac a).isLt
  have hk1 : 29 ≤ k ∧ k ≤ 31 := by split_ifs at hk <;> omega
  have hkd : discardedBits (((nexp a).toNat : Int) - 1023) = k := by
    unfold discardedBits; rw [hk]; split_ifs <;> omega
  have p52 : 2 ^ 52 = 2 ^ (52 - k) * 2 ^ k := by rw [← Nat.pow_add]; congr 1; omega
  have p53 : 2 ^ 53 = 2 * 2 ^ (52 - k) * 2 ^ k := by rw [Nat.mul_assoc, ← p52]; norm_num
  have q52 : 2 ^ 52 = 2 ^ (51 - k) * 2 ^ (k + 1) := by rw [← Nat.pow_add]; congr 1; omega
  -- the magnitude rounds as the significand does, the exponent field being an even number of units
  have hr : roundEvenShift (mag a).toNat k * 2 ^ k
      = ((nexp a).toNat - 1) * 2 ^ 52 + roundEvenShift (2 ^ 52 + (nfrac a).toNat) k * 2 ^ k := by
    have : (mag a).toNat = (((nexp a).toNat - 1) * 2 ^ (51 - k)) * 2 ^ (k + 1) + (2 ^ 52 + (nfrac a).toNat) := by
      rw [Nat.mul_assoc, ← q52, hm]; omega
    rw [this, roundEvenShift_add, q52, Nat.pow_succ]
    ring
  have hub : roundEvenShift (2 ^ 52 + (nfrac a).toNat) k * 2 ^ k ≤ 2 ^ 53 := by
    rw [p53]
    exact Nat.mul_le_mul_right _ (roundEvenShift_le (by rw [← p53]; omega))
  have hlb : 2 ^ 52 ≤ roundEvenShift (2 ^ 52 + (nfrac a).toNat) k * 2 ^ k := by
    conv_lhs => rw [p52]
    exact Nat.mul_le_mul_right _ (le_roundEvenShift (by rw [← p52]; omega))
  unfold preRound32
  simp only [hkd]
  rw [Nat.shiftLeft_eq, hr]
  generalize roundEvenShift (2 ^ 52 + (nfrac a).toNat) k * 2 ^ k = R at *
  by_cases hx : ((nexp a).toNat : Int) - 1023 > 127
  · rw [if_pos hx, if_pos (by omega)]
    exact ⟨by simp, by simp⟩
  rw [if_neg hx]
  by_cases hc : R = 2 ^ 53
  · simp only [hc, if_true]
    by_cases hx2 : ((nexp a).toNat : Int) - 1023 + 1 > 127
    · rw [if_pos hx2, if_pos (by omega)]
      exact ⟨by simp, by simp⟩
    · rw [if_neg hx2, if_neg (by omega), mag_ofFields_toNat, BitVec.toNat_ofInt, BitVec.toNat_ofNat]
      exact ⟨sign_ofFields _ _ _, by omega⟩
  · simp only [hc, if_false]
    rw [if_neg hx, if_neg (by omega), mag_ofFields_toNat, BitVec.toNat_ofInt, BitVec.toNat_ofNat]
    exact ⟨sign_ofFields _ _ _, by omega⟩

/-- The constants of a configuration whose pre-rounding is binary32: they are those of 8/23 (R81). -/
theorem binary32_constants {c : Config} (h : c.Legal) (hp : c.preRound = .binary32) :
    c.shift = 29 ∧ c.biasDiff = 895 ∧ c.hubBit.toNat = 2 ^ 28 := by
  obtain ⟨h1, h2⟩ := h.2.2.2.2.1 hp
  have hs : c.shift = 29 := by unfold Config.shift; omega
  refine ⟨hs, ?_, by rw [Config.hubBit_toNat h, hs]⟩
  unfold Config.biasDiff Config.customBias
  rw [h1]
  norm_num

/-- A `GENERAL` word is not below the lowest binade of the format. -/
theorem general_nexp {c : Config} (h : c.Legal) {a : Word} (hg : classOf c a = .general) :
    c.biasDiff ≤ (nexp a).toNat := by
  rw [classOf_general_iff _ _ h, Config.mag_lowestVal h, mag_toNat_fields] at hg
  have := (nfrac a).isLt
  have := Nat.two_pow_pos c.shift
  by_contra hlt
  have : ((nexp a).toNat + 1) * 2 ^ 52 ≤ c.biasDiff * 2 ^ 52 := Nat.mul_le_mul_right _ (by omega)
  omega

/-- A pre-rounded `GENERAL` word keeps its sign and is clear below the hub bit's upper neighbour, so that forcing the hub
bit puts it on the grid (R81: "the OR with `HUB_BIT` ... sets exactly the hub bit"). -/
theorem preRound_mod_cell {c : Config} (h : c.Legal) {a : Word} (hg : classOf c a = .general) :
    sign (preRound c a) = sign a ∧ (mag (preRound c a)).toNat % 2 ^ c.shift = 0 ∧
      (mag (preRound c a)).toNat ≤ 2047 * 2 ^ 52 := by
  obtain ⟨_, hlt, _⟩ := (classOf_general_iff _ _ h).1 hg
  unfold preRound
  cases hp : c.preRound
  · obtain ⟨h1, h2, _⟩ := binary32_constants h hp
    have hb := general_nexp h hg
    obtain ⟨hs, hm⟩ := preRound32_mag (a := a) (by omega) hlt rfl
    refine ⟨hs, ?_, ?_⟩
    · show (mag (preRound32 a)).toNat % _ = 0
      rw [hm, h1]
      split_ifs with h3 h4 h5
      · decide
      · exact Nat.mul_mod_left _ _
      · decide
      · exact Nat.mod_eq_zero_of_dvd (Dvd.dvd.mul_left (Nat.pow_dvd_pow 2 (by omega)) _)
    · show (mag (preRound32 a)).toNat ≤ _
      rw [hm]
      split_ifs <;> omega
  · obtain ⟨hs, hm⟩ := preRoundM_mag h hlt
    refine ⟨hs, ?_, ?_⟩
    · show (mag (preRoundM c a)).toNat % _ = 0
      rw [hm]
      exact Nat.mul_mod_left _ _
    · show (mag (preRoundM c a)).toNat ≤ _
      rw [hm, ← h.pow_mant_shift, ← Nat.mul_assoc]
      rw [← h.pow_mant_shift, ← Nat.mul_assoc] at hlt
      exact Nat.mul_le_mul_right _ (roundEvenShift_le hlt)

/-- Forcing the hub bit in a word that is clear below it (R80 step 3) is the snap of that word. -/
theorem or_hubBit_eq_snap {c : Config} (h : c.Legal) {p : Word} (hp : (mag p).toNat % 2 ^ c.shift = 0) :
    p ||| c.hubBit = snap c p := by
  have hs := h.shift_bounds
  apply BitVec.eq_of_getLsbD_eq
  intro i _
  rw [snap_getLsbD h, BitVec.getLsbD_or, hubBit_testBit h]
  by_cases hle : c.shift ≤ i
  · simp [hle, Bool.or_comm]
  · have : p.getLsbD i = false := by
      rw [getLsbD_eq_mag p (by omega), BitVec.getLsbD, ← Nat.mod_add_div (mag p).toNat (2 ^ c.shift), hp, Nat.zero_add,
        Nat.testBit_two_pow_mul]
      simp [hle]
    simp [hle, this]

/-- What construction does with a `GENERAL` word (R80, R83): the word as it is where it lies on the grid; an infinite
pre-rounded value at once; else the hub bit forced; the clamp last. -/
theorem constructD_general {c : Config} (h : c.Legal) {a : Word} (hg : classOf c a = .general) :
    constructD c a =
      if onGrid c a then clamp c a
      else if mag (preRound c a) = mag PINF then preRound c a else clamp c (snap c (preRound c a)) := by
  rw [← or_hubBit_eq_snap h (preRound_mod_cell h hg).2.1]
  simp only [constructD, special_general hg]

/-- Construction of a word that is not `GENERAL` is the handler's special value (R80 step 1). -/
theorem constructD_handled {c : Config} {a : Word} (ha : classOf c a ≠ .general) :
    constructD c a = quantize c a := by
  obtain ⟨r, hr, _⟩ := special_handled ha
  simp [constructD, quantize, hr]

end Sys2Proof.Machine
end

