-- ==== Sys2Proof/Laws/Conversion.lean ====
section
/-! SUPPORT. What the two exact conversions `WIDEN` and `I2D` denote (41_construct.md R84, R85). -/

namespace Sys2Proof.Machine

/-- The fraction that an exact conversion gives an integer of at most 53 bits, and the value it stands for. -/
theorem log2_frac {m k : Nat} (hm : m ≠ 0) (hk : k = highestBit m) (h : m < 2 ^ 53) :
    2 ^ k ≤ m ∧ m < 2 ^ (k + 1) ∧ k ≤ 52 ∧ (m - 2 ^ k) <<< (52 - k) < 2 ^ 52 ∧
      ((2:ℚ) ^ k * (1 + (((m - 2 ^ k) <<< (52 - k) : Nat) : ℚ) / 2 ^ 52) = m) := by
  subst hk
  have h1 : 2 ^ highestBit m ≤ m := Nat.log2_self_le hm
  have h2 : m < 2 ^ (highestBit m + 1) := Nat.lt_log2_self
  have h3 : highestBit m ≤ 52 := by
    have := (Nat.log2_lt hm).2 h
    show m.log2 ≤ 52
    omega
  generalize highestBit m = k at *
  obtain ⟨j, hj⟩ : ∃ j, 52 = k + j := ⟨52 - k, by omega⟩
  have hj' : 52 - k = j := by omega
  have hp : (2:Nat) ^ 52 = 2 ^ k * 2 ^ j := by rw [← pow_add, ← hj]
  refine ⟨h1, h2, h3, ?_, ?_⟩
  · rw [hj', Nat.shiftLeft_eq, hp]
    exact Nat.mul_lt_mul_of_pos_right (by rw [pow_succ] at h2; omega) (Nat.two_pow_pos _)
  · rw [hj', Nat.shiftLeft_eq]
    push_cast [Nat.cast_sub h1]
    have hq : (2:ℚ) ^ 52 = 2 ^ k * 2 ^ j := by exact_mod_cast hp
    rw [hq]
    field_simp
    ring

/-- What a normal word denotes (30_encoding.md R50). -/
theorem val_normal {s : BitVec 1} {e f : Nat} (h1 : 1 ≤ e) (h2 : e ≤ 2046) (hf : f < 2 ^ 52) :
    val (ofFields s (BitVec.ofNat 11 e) (BitVec.ofNat 52 f)) =
      .finite s ((2:ℚ) ^ ((e:Int) - 1023) * (1 + (f:ℚ) / 2 ^ 52)) := by
  have he : e % 2 ^ 11 = e := Nat.mod_eq_of_lt (by omega)
  simp only [val, nexp_ofFields, nfrac_ofFields, sign_ofFields, BitVec.toNat_ofNat, he, Nat.mod_eq_of_lt hf]
  rw [if_neg (by omega), if_neg (by omega)]

theorem val_signedZero (s : BitVec 1) : val (signedZero s) = .finite s 0 := by
  have h1 : (nexp (signedZero s)).toNat = 0 := by rw [nexp_toNat, signedZero, ofSignMag_toNat]; simp; omega
  have h2 : (nfrac (signedZero s)).toNat = 0 := by rw [nfrac_toNat, signedZero, ofSignMag_toNat]; simp; omega
  simp only [val, h1, h2, sign_signedZero, if_true]
  norm_num

theorem pow_shift_exponent (k c : Nat) (d : Int) (h : (c : Int) = 1023 + d) :
    (2:ℚ) ^ (((k + c : Nat) : Int) - 1023) = 2 ^ d * 2 ^ k := by
  rw [← zpow_natCast, ← zpow_add₀ (by norm_num)]
  congr 1
  push_cast
  omega

/-- `I2D` is exact (41_construct.md R85). -/
theorem val_i2d {i : Int} (h : i.natAbs < 2 ^ 53) :
    val (i2d i) = .finite (if i < 0 then 1 else 0) (i.natAbs : ℚ) := by
  unfold i2d
  split
  · subst i; exact val_signedZero 0
  · rename_i hi
    obtain ⟨h1, h2, h3, h4, h5⟩ := log2_frac (Int.natAbs_ne_zero.2 hi) rfl h
    rw [val_normal (by omega) (by omega) h4, ← h5, Nat.add_comm, pow_shift_exponent _ 1023 0 rfl]
    simp only [zpow_zero, one_mul]

/-- `WIDEN` is exact, a NaN's sign kept (41_construct.md R84). -/
theorem val_widen (w : BitVec 32) : val (widen w) = val32 w := by
  have hf : (w.extractLsb' 0 23).toNat < 2 ^ 23 := (w.extractLsb' 0 23).isLt
  have he : (w.extractLsb' 23 8).toNat < 2 ^ 8 := (w.extractLsb' 23 8).isLt
  unfold widen val32
  generalize (w.extractLsb' 0 23).toNat = f at *
  generalize (w.extractLsb' 23 8).toNat = e at *
  generalize w.extractLsb' 31 1 = s
  dsimp only
  by_cases h255 : e = 255
  · subst e
    have hff : f <<< 29 < 2 ^ 52 := by rw [Nat.shiftLeft_eq]; omega
    simp only [val, nexp_ofFields, nfrac_ofFields, sign_ofFields, if_true]
    have : (BitVec.ofNat 52 (f <<< 29) = 0) ↔ f = 0 := by
      constructor
      · intro h
        have := congrArg BitVec.toNat h
        simp only [BitVec.toNat_ofNat, Nat.shiftLeft_eq] at this
        simp at this
        omega
      · rintro rfl; rfl
    by_cases hz : f = 0
    · simp [hz]
    · simp only [hz, if_false, this]
      rfl
  · by_cases h0 : e = 0
    · subst e
      by_cases hz : f = 0
      · subst f; simp [val_signedZero]
      · simp only [hz, if_neg h255, and_false, if_false, if_true]
        obtain ⟨h1, h2, h3, h4, h5⟩ := log2_frac hz rfl (by omega)
        have hk : highestBit f ≤ 22 := by
          have := (Nat.log2_lt hz).2 hf
          show f.log2 ≤ 22
          omega
        have : BitVec.ofInt 11 ((highestBit f : Int) - 149 + 1023) = BitVec.ofNat 11 (highestBit f + 874) := by
          rw [← BitVec.ofInt_natCast]; congr 1; push_cast; ring
        rw [this, val_normal (by omega) (by omega) h4]
        refine congrArg (Denotation.finite s) ?_
        have e2 : (2:ℚ) ^ (-149:Int) = 2 ^ (-126:Int) / 2 ^ 23 := by
          rw [show (-149 : Int) = -126 - (23 : Nat) by omega, zpow_sub₀ (by norm_num), zpow_natCast]
        rw [pow_shift_exponent _ 874 (-149) rfl, mul_assoc, h5, e2, div_mul_eq_mul_div, mul_div_assoc]
    · simp only [h0, h255, false_and, if_false]
      have hff : f <<< 29 < 2 ^ 52 := by rw [Nat.shiftLeft_eq]; omega
      have : BitVec.ofInt 11 ((e : Int) - 127 + 1023) = BitVec.ofNat 11 (e + 896) := by
        rw [← BitVec.ofInt_natCast]; congr 1; push_cast; ring
      rw [this, val_normal (by omega) (by omega) hff]
      have e1 : (((e + 896 : Nat) : Int) - 1023) = (e:Int) - 127 := by push_cast; ring
      have e2 : ((f <<< 29 : Nat) : ℚ) / 2 ^ 52 = f / 2 ^ 23 := by
        rw [Nat.shiftLeft_eq]; push_cast; rw [div_eq_div_iff (by positivity) (by positivity)]; ring
      rw [e1, e2]

end Sys2Proof.Machine
end

