-- ==== Sys2Proof/Laws/Decode.lean ====
section
/-! SUPPORT. The bits of an encoded instruction: the select bits and the operand field. -/

namespace Sys2Proof

theorem encode_selectBit (i : Instr) (k : Nat) : (encode i).getLsbD (64 + k) = i.opcode.code.getLsbD k := by
  rw [encode, BitVec.getLsbD_append, if_neg (by omega), Nat.add_sub_cancel_left]

theorem encode_operandBit (i : Instr) {k : Nat} (h : k < 64) : (encode i).getLsbD k = i.operand.getLsbD k := by
  rw [encode, BitVec.getLsbD_append, if_pos h]

theorem operandField_encode (i : Instr) : operandField (encode i) = i.operand := by
  apply BitVec.eq_of_getLsbD_eq
  intro k hk
  rw [operandField, BitVec.getLsbD_extractLsb', Nat.zero_add, encode_operandBit i hk]
  simp [hk]

theorem encode_toNat (i : Instr) : (encode i).toNat = i.opcode.code.toNat * 2 ^ 64 + i.operand.toNat := by
  rw [encode, BitVec.toNat_append, ← Nat.shiftLeft_add_eq_or_of_lt i.operand.isLt, Nat.shiftLeft_eq]

/-- An instruction is the request of its operation and operand. -/
theorem opcode_request (i : Instr) : i.opcode.request i.operand = i := by
  cases i <;> rfl

end Sys2Proof
end

