-- ==== Sys2Proof/Laws/State.lean ====
section
/-! SUPPORT. One lemma per field per update of State, and what the one operation on State can do. -/

namespace Sys2Proof.Machine

@[simp] theorem State.withRequest_config (s : State) (w : RequestWord) : (s.withRequest w).config = s.config := rfl
@[simp] theorem State.withRequest_request (s : State) (w : RequestWord) : (s.withRequest w).request = w := rfl
@[simp] theorem State.withRequest_y (s : State) (w : RequestWord) : (s.withRequest w).y = s.y := rfl
@[simp] theorem State.withRequest_bf (s : State) (w : RequestWord) : (s.withRequest w).bf = s.bf := rfl

@[simp] theorem State.offer_config (s : State) (i : Instr) : (s.offer i).config = s.config := rfl
@[simp] theorem State.offer_request (s : State) (i : Instr) : (s.offer i).request = encode i := rfl
@[simp] theorem State.offer_y (s : State) (i : Instr) : (s.offer i).y = s.y := rfl
@[simp] theorem State.offer_bf (s : State) (i : Instr) : (s.offer i).bf = s.bf := rfl

@[simp] theorem State.reset_config : State.reset.config = Config.build823 := rfl
@[simp] theorem State.reset_request : State.reset.request = 0 := rfl
@[simp] theorem State.reset_y : State.reset.y = 0 := rfl
@[simp] theorem State.reset_bf : State.reset.bf = none := rfl

theorem State.respond_legal {s : State} (h : s.config.Legal) (y : Word) (bf : Option BitFields) :
    s.respond y bf = .next { s with y := y, bf := bf } := if_pos h

theorem State.respond_illegal {s : State} (h : ¬ s.config.Legal) (y : Word) (bf : Option BitFields) :
    s.respond y bf = .refused .illegalConfiguration := if_neg h

/-- Everything an answered request has done: the configuration was legal, and only the response ports changed. -/
theorem State.respond_next {s t : State} {y : Word} {bf : Option BitFields} (h : s.respond y bf = .next t) :
    s.config.Legal ∧ t = { s with y := y, bf := bf } := by
  unfold State.respond at h
  split at h
  · exact ⟨‹_›, by simpa using h.symm⟩
  · simp at h

end Sys2Proof.Machine
end

