-- ==== Sys2Proof/Laws/Exec.lean ====
section
/-! SUPPORT. What `exec` does, said once: each operation answers its response word (and record) at the response ports. -/

namespace Sys2Proof.Machine

/-- The response word of an instruction, read off the meanings. -/
def responseWord (c : Config) : Instr → Word
  | .qnt a => quantize c a
  | .cvtD a => constructD c a
  | .cvtS a => constructD c (widen (operand32 a))
  | .cvtW a => constructD c (i2d (operandInt c a))
  | .dec a => decodeCode c (operandCode c a)
  | .xbf a => encodeValue c a
  | .enc a => encodeValue c a
  | .rdD a => a

/-- The record of an instruction: present for `XBF` only. -/
def responseRecord (c : Config) : Instr → Option BitFields
  | .xbf a => some (extractFields c a)
  | .qnt _ | .cvtD _ | .cvtS _ | .cvtW _ | .dec _ | .enc _ | .rdD _ => none

theorem exec_eq_respond (i : Instr) (s : State) :
    exec i s = s.respond (responseWord s.config i) (responseRecord s.config i) := by
  cases i <;> rfl

theorem exec_legal {s : State} (h : s.config.Legal) (i : Instr) :
    exec i s = .next { s with y := responseWord s.config i, bf := responseRecord s.config i } := by
  rw [exec_eq_respond, State.respond_legal h]

theorem exec_illegal {s : State} (h : ¬ s.config.Legal) (i : Instr) : exec i s = .refused .illegalConfiguration := by
  rw [exec_eq_respond, State.respond_illegal h]

/-- Everything `exec` can do when it answers a next state. -/
theorem exec_next {s t : State} {i : Instr} (h : exec i s = .next t) :
    s.config.Legal ∧ t = { s with y := responseWord s.config i, bf := responseRecord s.config i } :=
  State.respond_next (exec_eq_respond i s ▸ h)

theorem step_legal {s : State} (h : s.config.Legal) :
    step s = .next { s with y := responseWord s.config (decodeRequest s.request)
                            bf := responseRecord s.config (decodeRequest s.request) } := exec_legal h _

end Sys2Proof.Machine
end

