-- ==== Sys2Proof/Laws/NaN.lean ====
section
/-! SUPPORT. NaN words: which they are, what `QNT` makes of one, and that a generated NaN is one. -/

namespace Sys2Proof.Machine

/-- The NaN words are those above infinity in magnitude (30_encoding.md R50). -/
theorem isNaN_iff_mag (d : Word) : isNaN d ↔ mag d > mag PINF := by
  have h := mag_toNat_fields d
  have e := (nexp d).isLt
  have f := (nfrac d).isLt
  simp only [isNaN, GT.gt, BitVec.lt_def, mag_PINF_toNat, ne_eq, ← BitVec.toNat_inj (x := nfrac d)]
  have : BitVec.toNat (0 : BitVec 52) = 0 := rfl
  rw [this]
  constructor
  · rintro ⟨h1, h2⟩; omega
  · intro h1; constructor <;> omega

/-- A generated NaN is a NaN, whatever its free word. -/
theorem drawNaN_isNaN (op : NativeOp) (a b c : Word) : isNaN (drawNaN op a b c) := by
  unfold drawNaN
  generalize Config.freeNaN op a b c = w
  have h : nexp (w ||| 0x7FF8000000000000) = nexp w ||| nexp 0x7FF8000000000000 := BitVec.extractLsb'_or ..
  refine ⟨?_, fun h0 => ?_⟩
  · rw [h, show nexp 0x7FF8000000000000 = BitVec.allOnes 11 by decide, BitVec.or_allOnes]
    rfl
  · have := congrArg (·.getLsbD 51) h0
    simp [nfrac] at this

theorem classOf_nan (c : Config) {d : Word} (h : isNaN d) : classOf c d = .nan := by
  have h1 := (isNaN_iff_mag d).1 h
  have hz : mag d ≠ 0 := by rintro h; rw [h] at h1; revert h1; decide
  have hi : mag d ≠ mag PINF := by rintro h; rw [h] at h1; revert h1; decide
  have ho : mag d ≠ mag ONE := by rintro h; rw [h] at h1; revert h1; decide
  rw [classOf, if_neg hz, if_neg hi, if_neg ho, if_pos h1]

/-- `QNT` of a NaN is the infinity of its sign bit (40_special_cases.md R72). -/
theorem quantize_nan (c : Config) {d : Word} (h : isNaN d) : quantize c d = signedInf (sign d) := by
  rw [quantize, special, classOf_nan c h]

end Sys2Proof.Machine
end

