-- ==== Sys2Proof/Laws/PerInstr.lean ====
section
/-! SUPPORT. A statement for all instructions, one lemma a constructor: the operation code of the opcode table stands in
the encoding's bits 66:64 above the operand (30_encoding.md R56; spec/opcode_table.json). -/

namespace Sys2Proof.Laws.EncodingFields

/-- The operation code of the opcode table's row. -/
def tableCode : Instr → Nat
  | .qnt _ => 0
  | .cvtD _ => 1
  | .cvtS _ => 2
  | .cvtW _ => 3
  | .dec _ => 4
  | .xbf _ => 5
  | .enc _ => 6
  | .rdD _ => 7

def Statement (i : Instr) : Prop := (encode i).toNat = tableCode i * 2 ^ 64 + i.operand.toNat

theorem qnt (a : Word) : Statement (.qnt a) := encode_toNat _
theorem cvtD (a : Word) : Statement (.cvtD a) := encode_toNat _
theorem cvtS (a : Word) : Statement (.cvtS a) := encode_toNat _
theorem cvtW (a : Word) : Statement (.cvtW a) := encode_toNat _
theorem dec (a : Word) : Statement (.dec a) := encode_toNat _
theorem xbf (a : Word) : Statement (.xbf a) := encode_toNat _
theorem enc (a : Word) : Statement (.enc a) := encode_toNat _
theorem rdD (a : Word) : Statement (.rdD a) := encode_toNat _

end Sys2Proof.Laws.EncodingFields
end

