-- ==== Sys2Proof/Machine/Client.lean ====
section
/-! DEFINITION. The client's notation (30_encoding.md R58): requests `dst = MNEMONIC src` where `src` is a literal word or
the name of an earlier result, contract operations `dst = ADD src1, src2`, and native binary64 operations done outside the
block. The names are the client's, not the block's: the block sees requests only, one a step. -/

namespace Sys2Proof.Machine

/-- `src`: a literal or an earlier result's name (R58). -/
inductive Src where
  | lit (w : Word)
  | result (name : String)
deriving DecidableEq, Repr

/-- A calculation of the client over binary64 words (43_arithmetic.md R114). -/
inductive Calc where
  | bin (op : BinOp) (x y : Src)
  | sqrt (x : Src)
  | fma (x y z : Src)
deriving DecidableEq, Repr

/-- One line: a request to the block, a native operation outside it, or a contract operation. -/
inductive Line where
  | request (dst : String) (op : Opcode) (src : Src)
  | native (dst : String) (work : Calc)
  | contract (dst : String) (work : Calc)
deriving DecidableEq, Repr

/-- The results named so far, latest first. -/
abbrev Names := List (String × Word)

/-- Why a line gives no result. -/
inductive ClientStop where
  /-- The line reads a name that no earlier line gave; safe. -/
  | unknownName (name : String)
  /-- The block refused the request; safe. -/
  | refused (r : Refusal)
  /-- The contract gives the operation no value; safe. -/
  | noValue (r : ContractRefusal)
deriving DecidableEq, Repr

def Src.read (names : Names) : Src → Except ClientStop Word
  | .lit w => .ok w
  | .result n =>
    match names.lookup n with
    | some w => .ok w
    | none => .error (.unknownName n)

/-- The native result of a calculation (R114). -/
def Calc.native (A : Arith) (names : Names) : Calc → Except ClientStop Word
  | .bin op x y => do return nativeBin A op (← x.read names) (← y.read names)
  | .sqrt x => do return A.sqrt64 (← x.read names)
  | .fma x y z => do return A.fma64 (← x.read names) (← y.read names) (← z.read names)

/-- The contract's result of a calculation (43_arithmetic.md R110, R112, R113). -/
def Calc.contract (c : Config) (A : Arith) (names : Names) : Calc → Except ClientStop Word
  | .bin op x y => do return contractBin c A op (← x.read names) (← y.read names)
  | .sqrt x => do return contractSqrt c A (← x.read names)
  | .fma x y z => do
    match contractFma c A (← x.read names) (← y.read names) (← z.read names) with
    | .ok w => .ok w
    | .error r => .error (.noValue r)

/-- Run one line: a request goes through one step of the block and its response word gets the name. -/
def Line.run (A : Arith) (s : State) (names : Names) : Line → Except ClientStop (State × Names)
  | .request dst op src => do
    match step (s.offer (op.request (← src.read names))) with
    | .next t => .ok (t, (dst, t.y) :: names)
    | .fault f => nomatch f
    | .refused r => .error (.refused r)
  | .native dst work => do return (s, (dst, ← work.native A names) :: names)
  | .contract dst work => do return (s, (dst, ← work.contract s.config A names) :: names)

/-- A sequence of lines (R58). -/
def runLines (A : Arith) (s : State) (names : Names) : List Line → Except ClientStop (State × Names)
  | [] => .ok (s, names)
  | l :: ls =>
    match l.run A s names with
    | .ok (t, more) => runLines A t more ls
    | .error e => .error e

end Sys2Proof.Machine
end

