-- ==== Sys2Proof/Tests/Slice0.lean ====
section
/-! SUPPORT. The model's own tests. Every expected word is taken from spec/95_test_vectors.md (its section stands beside
the test) or written out by hand from the encodings; the witnesses show inputs that meet the hypotheses of the
obligations. -/

namespace Sys2Proof.Tests

open Sys2Proof Sys2Proof.Machine Sys2Proof.Reference

/-- The response word and record of one operation in a configuration, if it answers. -/
def answer (c : Config) (i : Instr) : Option (Word × Option BitFields) :=
  match exec i { State.reset with config := c } with
  | .next t => some (t.y, t.bf)
  | .fault _ => none
  | .refused _ => none

def word? (c : Config) (i : Instr) : Option Word := (answer c i).map Prod.fst

/-- Configurations that tests use beside the default one. -/
def build510 : Config := Config.standard 5 10
def altMax : Config := { Config.build823 with maxvalExpField := 255, maxvalFracField := 0x7FFFFE }
def smallest : Config := Config.standard 2 1
def widest : Config := { Config.standard 10 51 with intWidth := 53 }

theorem legal_build823 : Config.build823.Legal := by decide
theorem legal_reset : State.reset.config.Legal := legal_build823
theorem legal_build510 : build510.Legal := by decide
theorem legal_altMax : altMax.Legal := by decide
theorem legal_smallest : smallest.Legal := by decide
theorem legal_widest : widest.Legal := by decide

/-! ### WellFormed: one ill-formed term for each check -/

theorem test_refuses_expBits_low : ¬ { Config.standard 1 23 with maxvalExpField := 1 }.expBitsLegal := by decide
theorem test_refuses_expBits_high : ¬ (Config.standard 11 23).expBitsLegal := by decide
theorem test_refuses_mantBits_zero : ¬ (Config.standard 8 0).mantBitsLegal := by decide
theorem test_refuses_mantBits_high : ¬ (Config.standard 8 52).mantBitsLegal := by decide
theorem test_refuses_maxval_below_one : ¬ { Config.build823 with maxvalExpField := 127 }.maxvalFieldsLegal := by decide
theorem test_refuses_maxval_exp_wide : ¬ { Config.build823 with maxvalExpField := 256 }.maxvalFieldsLegal := by decide
theorem test_refuses_maxval_frac_wide :
    ¬ { Config.build823 with maxvalFracField := 0x800000 }.maxvalFieldsLegal := by decide
theorem test_refuses_maxval_infinity_code :
    ¬ { Config.build823 with maxvalExpField := 255 }.maxvalNotInfinity := by decide
theorem test_refuses_binary32_elsewhere : ¬ { build510 with preRound := .binary32 }.preRoundLegal := by decide
theorem test_refuses_intWidth_low : ¬ { Config.build823 with intWidth := 1 }.intWidthLegal := by decide
theorem test_refuses_intWidth_high : ¬ { Config.build823 with intWidth := 54 }.intWidthLegal := by decide
theorem test_illegal_is_refused_by_the_machine :
    exec (.qnt 0) { State.reset with config := { Config.build823 with intWidth := 54 } }
      = .refused .illegalConfiguration := exec_illegal (by decide) _
theorem test_refuses_wide_request :
    decode 0x80000000000000000 = .error .widerThanRequest := by decide

/-! ### Decode: each operation's request word bit by bit, from the opcode table's rows (30_encoding.md R56). The operand
is the one of bits 63, 4, 3 and 0: `0x8000000000000019`. -/

theorem test_decode_qnt : decodeTableWord 67
    0b0001000000000000000000000000000000000000000000000000000000000011001 = some (.qnt 0x8000000000000019) := by decide
theorem test_decode_cvtD : decodeTableWord 67
    0b0011000000000000000000000000000000000000000000000000000000000011001 = some (.cvtD 0x8000000000000019) := by decide
theorem test_decode_cvtS : decodeTableWord 67
    0b0101000000000000000000000000000000000000000000000000000000000011001 = some (.cvtS 0x8000000000000019) := by decide
theorem test_decode_cvtW : decodeTableWord 67
    0b0111000000000000000000000000000000000000000000000000000000000011001 = some (.cvtW 0x8000000000000019) := by decide
theorem test_decode_dec : decodeTableWord 67
    0b1001000000000000000000000000000000000000000000000000000000000011001 = some (.dec 0x8000000000000019) := by decide
theorem test_decode_xbf : decodeTableWord 67
    0b1011000000000000000000000000000000000000000000000000000000000011001 = some (.xbf 0x8000000000000019) := by decide
theorem test_decode_enc : decodeTableWord 67
    0b1101000000000000000000000000000000000000000000000000000000000011001 = some (.enc 0x8000000000000019) := by decide
theorem test_decode_rdD : decodeTableWord 67
    0b1111000000000000000000000000000000000000000000000000000000000011001 = some (.rdD 0x8000000000000019) := by decide

/-! ### One or two vectors an operation -/

/-- 95_test_vectors.md 2.1: truncation in the cell of pi, and the upper half of the cell of `maxVal`. -/
theorem test_qnt_truncates : word? Config.build823 (.qnt 0xC00921FB54442D18) = some 0xC00921FB50000000 := by decide +kernel
theorem test_qnt_top_cell : word? Config.build823 (.qnt 0x47DFFFFFFFFFFFFF) = some 0x47DFFFFFF0000000 := by decide +kernel

/-- 2.2: a tie of the coarse binary32 rounding, and an operand that rounds to infinity (R83). -/
theorem test_cvtD_coarse_tie : word? Config.build823 (.cvtD 0x37F00000C0000000) = some 0x37F0000110000000 := by
  decide +kernel
theorem test_cvtD_infinite_pre_round : word? Config.build823 (.cvtD 0xFFEFFFFFFFFFFFFF) = some 0xFFF0000000000000 := by
  decide +kernel

/-- 2.3: the smallest binary32 subnormal that survives, with set bits above the operand; a negative NaN. -/
theorem test_cvtS_subnormal : word? Config.build823 (.cvtS 0xFFFFFFFF00200001) = some 0x37F0000090000000 := by
  decide +kernel
theorem test_cvtS_nan : word? Config.build823 (.cvtS 0xFFC00000) = some 0xFFF0000000000000 := by decide +kernel

/-- 2.4: a negative integer that is pre-rounded, and an integer on the grid. -/
theorem test_cvtW_negative : word? Config.build823 (.cvtW 0x80000001) = some 0xC1E0000010000000 := by decide +kernel
theorem test_cvtW_on_grid : word? Config.build823 (.cvtW 0x01000003) = some 0x4170000030000000 := by decide +kernel

/-- 2.5: a general code, and a stray all-ones code. -/
theorem test_dec_general : word? Config.build823 (.dec 0x40490FDB) = some 0x3FF921FB70000000 := by decide +kernel
theorem test_dec_stray : word? Config.build823 (.dec 0xFF800000) = some 0xC7E0000010000000 := by decide +kernel

/-- 2.5: a negative record with its code, and infinity's fields but for the open bit. -/
theorem test_xbf_record : answer Config.build823 (.xbf 0xC059000010000000) =
    some (0xC3480000, some { sign := 1, nativeExp := 1029, nativeFrac := 0x9000010000000, cExp := 134,
                             cFrac := 0x480000, cFracHub := 0x900001 }) := by decide +kernel
theorem test_xbf_infinity :
    (extractFields Config.build823 0xFFF0000000000000).cExp = 255 ∧
    (extractFields Config.build823 0xFFF0000000000000).cFrac = 0x7FFFFF := by decide +kernel

theorem test_enc_infinity : word? Config.build823 (.enc 0xFFF0000000000000) = some 0xFFFFFFFF := by decide +kernel
theorem test_enc_maxVal : word? Config.build823 (.enc 0x47DFFFFFF0000000) = some 0x7F7FFFFF := by decide +kernel

/-- 44_extract_format.md R123. -/
theorem test_rdD : word? Config.build823 (.rdD 0x4000000010000000) = some 0x4000000010000000 := by decide +kernel
theorem test_rdD_negative_zero : word? Config.build823 (.rdD 0x8000000000000000) = some 0x8000000000000000 := by
  decide +kernel

/-- 2.8 and 2.9: the second configuration, and the other reading of `maxVal`. -/
theorem test_cvtD_build510 : word? build510 (.cvtD 0x3FF0030000000000) = some 0x3FF0060000000000 := by decide +kernel
theorem test_enc_build510 : word? build510 (.enc 0x4009220000000000) = some 0x4648 := by decide +kernel
theorem test_qnt_altMax : word? altMax (.qnt 0x47EFFFFFDFFFFFFF) = some 0x47EFFFFFD0000000 := by decide +kernel

/-- A step through the port: 95_test_vectors.md section 3's first request word form, `QNT` of two. -/
theorem test_step_from_the_port :
    step (State.reset.withFetchWord 67 0x04000000000000000)
      = .next { State.reset with request := 0x04000000000000000, y := 0x4000000010000000 } := by
  exact (step_legal (s := State.reset.withFetchWord 67 0x04000000000000000) (by decide)).trans
    (congrArg Host.Outcome.next (by decide +kernel))

/-! ### Outside the block: renderings (2.5), the contract (2.7), the client's notation (30_encoding.md R58) -/

theorem test_binary_rendering :
    toBinaryChars Config.build823 0x400921FB50000000 = "0|10000001|100100100001111110110101".toList := by decide +kernel
theorem test_hex_rendering : toHexChars Config.build823 0x4000000010000000 = "0x40800000".toList := by decide +kernel
theorem test_mul : contractBin Config.build823 ieeeArith .mul 0x4008000010000000 0x3FD5555550000000
    = 0x3FF0000010000000 := by decide +kernel
theorem test_sub : contractBin Config.build823 ieeeArith .sub 0x3FF0000010000000 0x3FF0000000000000
    = 0x3E70000010000000 := by decide +kernel
theorem test_div : contractBin Config.build823 ieeeArith .div 0xBFF0000000000000 0 = 0xFFF0000000000000 := by
  decide +kernel
theorem test_sqrt_native : ieeeArith.sqrt64 0x4000000010000000 = 0x3FF6A09E71CF8AFD := by decide +kernel
theorem test_fma_native : ieeeArith.fma64 0x4000000010000000 0x4000000010000000 0 = 0x4010000020000010 := by
  decide +kernel
theorem test_value_of_a_code : codeVal Config.build823 0x40800000 = .finite 0 (2 + 1 / 2 ^ 23) := by
  have h : codeSign Config.build823 0x40800000 = 0 ∧ codeExp Config.build823 0x40800000 = 129 ∧
      codeFrac Config.build823 0x40800000 = 0 := by decide
  simp only [codeVal, h]
  norm_num [Config.build823, Config.customBias]

/-! ### Witnesses: inputs that meet the hypotheses of the statements -/

theorem answers (i : Instr) : ∃ t, exec i State.reset = .next t := ⟨_, exec_legal legal_reset i⟩

theorem witness_StepRunsTheOfferedRequest :
    (Instr.qnt 0).wf = true ∧ State.reset.request = encode (.qnt 0) ∧ (67 : Nat) ≤ 67 := by decide

/-- Each row of the table is met by a word with a nonzero operand. -/
theorem witness_OpcodeTableRowsSelectTheOperation :
    (0x0FFFFFFFFFFFFFFFF &&& 0x70000000000000000 : RequestWord) = 0x00000000000000000 ∧
    (0x10000000000000001 &&& 0x70000000000000000 : RequestWord) = 0x10000000000000000 ∧
    (0x20000000000000001 &&& 0x70000000000000000 : RequestWord) = 0x20000000000000000 ∧
    (0x30000000000000001 &&& 0x70000000000000000 : RequestWord) = 0x30000000000000000 ∧
    (0x40000000000000001 &&& 0x70000000000000000 : RequestWord) = 0x40000000000000000 ∧
    (0x50000000000000001 &&& 0x70000000000000000 : RequestWord) = 0x50000000000000000 ∧
    (0x60000000000000001 &&& 0x70000000000000000 : RequestWord) = 0x60000000000000000 ∧
    (0x7FFFFFFFFFFFFFFFF &&& 0x70000000000000000 : RequestWord) = 0x70000000000000000 := by decide

theorem witness_DecodeAndEncodeAgree : (Instr.rdD 0xFFFFFFFFFFFFFFFF).wf = true := by decide

theorem witness_Inv : State.reset.Inv := ⟨legal_reset, fun _ h => by simp at h⟩

/-- A state that holds a record and meets the invariant, and its next step. -/
theorem witness_EveryStepKeepsTheInvariant :
    ∃ s t : State, s.Inv ∧ s.bf.isSome = true ∧ step s = .next t := by
  refine ⟨{ State.reset with
    request := encode (.xbf 0x37F0000030000000), y := 1,
    bf := some { sign := 0, nativeExp := 895, nativeFrac := 0x30000000, cExp := 0, cFrac := 1, cFracHub := 3 } },
    _, ⟨legal_reset, ?_⟩, rfl, step_legal legal_reset⟩
  intro b hb
  obtain rfl := Option.some.inj hb
  refine ⟨⟨?_, ?_, ?_, ?_⟩, ?_, ?_⟩ <;> decide

/-- An `XBF` request and another, for both directions of the record's clause. -/
theorem witness_EveryRequestIsAnswered :
    State.reset.config.Legal ∧ decodeRequest 0x50000000000000000 = .xbf 0 ∧ ∀ a, decodeRequest 0 ≠ .xbf a := by
  refine ⟨legal_reset, by decide, fun a h => ?_⟩
  have h' : decodeRequest 0 = .qnt 0 := by decide
  rw [h'] at h
  exact Instr.noConfusion h

theorem witness_IllegalConfigurationIsRefused :
    ¬ { State.reset with config := Config.standard 11 23 }.config.Legal := by decide

theorem witness_OperationsWriteOnlyTheResponsePorts :
    ∃ t, exec (.qnt 5) State.reset = .next t ∧ ∀ a, Instr.qnt 5 ≠ .xbf a :=
  ⟨_, exec_legal legal_reset _, fun _ h => Instr.noConfusion h⟩

/-- Two states that differ at every port and agree on the constants. -/
theorem witness_ResponsesDependOnRequestAndConstantsOnly :
    ∃ s s' t : State, s ≠ s' ∧ s.config = s'.config ∧ exec (.enc 1) s = .next t :=
  ⟨State.reset, { State.reset with request := 1, y := 1 }, _, by decide, rfl, exec_legal legal_reset _⟩

/-- Operands on both sides of every test of `QNT` and `CVT.D` at the boundary values; the 5/10 build covers
`PRE_ROUND_M`. -/
theorem witness_magnitudes :
    magOf 0x8000000000000000 = 0 ∧ magOf 0xBFF0000000000000 = oneMag ∧ magOf 0xFFF0000000000000 = infMag ∧
    magOf 0x7FF0000000000001 = infMag + 1 ∧ magOf 0x37F000002FFFFFFF + 1 = lowMag Config.build823 ∧
    magOf 0xB7F0000030000000 = lowMag Config.build823 ∧ magOf 0x47DFFFFFF0000000 = maxMag Config.build823 ∧
    Config.build823.preRound = .binary32 ∧ build510.preRound = .mantBits := by decide

theorem witness_CvtSOnlyAddsTheHubBit :
    State.reset.config.Legal ∧ State.reset.config.preRound = .binary32 ∧
    classOf State.reset.config (widen (operand32 0x00200001)) = .general ∧
    classOf State.reset.config (widen (operand32 0x7F7FFFFF)) = .general := by decide +kernel

/-- Both signs, the extreme integers and zero. -/
theorem witness_CvtWIsCvtDOfTheExactInteger :
    twosComplement 32 0x80000000 = -2147483648 ∧ twosComplement 32 0x7FFFFFFF = 2147483647 ∧
    twosComplement 32 0xFFFFFFFF00000000 = 0 ∧ twosComplement 53 0x001FFFFFFFFFFFFF = -1 ∧ widest.Legal := by decide

/-- A code of each kind, with set bits above the code. -/
theorem witness_DecAnswersTheDecodedCode :
    codeE Config.build823 0x180000000 = 0 ∧ codeF Config.build823 0x180000000 = 0 ∧
    codeE Config.build823 0xC0000000 = 2 ^ 7 ∧ codeF Config.build823 0xC0000000 = 0 ∧
    codeE Config.build823 0x7FFFFFFF = 255 ∧ codeF Config.build823 0x7FFFFFFF = 0x7FFFFF ∧
    codeE Config.build823 0x7FFFFFFE = 255 ∧ codeF Config.build823 0x7FFFFFFE = 0x7FFFFE := by decide

theorem witness_GeneralCodesDenoteMidpoints :
    Config.build823.Legal ∧ 0x00000001 < 2 ^ Config.build823.codeBits ∧ ¬ isReservedCode Config.build823 0x00000001 ∧
    0x7FFFFFFE < 2 ^ 32 ∧ ¬ isReservedCode Config.build823 0x7FFFFFFE ∧
    smallest.Legal ∧ 1 < 2 ^ smallest.codeBits ∧ ¬ isReservedCode smallest 1 := by decide

/-- An operand for each clause of `XBF`: the three specials, the two ends of the rebased range, and one outside it. -/
theorem witness_XbfAnswersTheFields :
    magOf 0x8000000000000000 = 0 ∧ magOf 0x3FF0000000000000 = oneMag ∧ magOf 0xFFF0000000000000 = infMag ∧
    (magOf 0x37F0000010000000 ≠ 0 ∧ magOf 0x37F0000010000000 ≠ oneMag ∧ magOf 0x37F0000010000000 ≠ infMag ∧
      (0x37F0000010000000 : Word).toNat / 2 ^ 52 % 2 ^ 11 = 1023 - 2 ^ 7) ∧
    (magOf 0x47EFFFFFFFFFFFFF ≠ infMag ∧
      (0x47EFFFFFFFFFFFFF : Word).toNat / 2 ^ 52 % 2 ^ 11 - (1023 - 2 ^ 7) = 2 ^ 8 - 1) ∧
    2 ^ 8 - 1 < (0x47F0000000000000 : Word).toNat / 2 ^ 52 % 2 ^ 11 - (1023 - 2 ^ 7) := by decide

/-- Words that differ only above each operand. -/
theorem witness_BitsAboveTheOperandAreIgnored :
    (0x100000002 : Word) ≠ 2 ∧ (0x100000002 : Word).toNat % 2 ^ 32 = (2 : Word).toNat % 2 ^ 32 ∧
    (0x100000002 : Word).toNat % 2 ^ Config.build823.intWidth = (2 : Word).toNat % 2 ^ Config.build823.intWidth ∧
    (0x100000002 : Word).toNat % 2 ^ Config.build823.codeBits = (2 : Word).toNat % 2 ^ Config.build823.codeBits := by
  decide

/-- A word of each class. -/
theorem witness_ClassesPartitionTheWords :
    classOf Config.build823 0x8000000000000000 = .zero ∧ classOf Config.build823 0x7FF0000000000000 = .inf ∧
    classOf Config.build823 0xBFF0000000000000 = .one ∧ classOf Config.build823 0x7FF0000000000001 = .nan ∧
    classOf Config.build823 0x37F000002FFFFFFF = .tiny ∧ classOf Config.build823 0x37F0000030000000 = .general := by
  decide +kernel

/-- A word for each of the four clauses of the special handler, at the boundaries. -/
theorem witness_SpecialHandlerSettlesAllButGeneralWords :
    Config.build823.Legal ∧ magOf 0x8000000000000000 = 0 ∧ magOf 0xFFF0000000000000 = infMag ∧
    magOf 0xBFF0000000000000 = oneMag ∧ infMag < magOf 0xFFF0000000000001 ∧
    (0 < magOf 1 ∧ magOf 0xB7F000002FFFFFFF < (mag Config.build823.lowestVal).toNat) ∧
    ((mag Config.build823.lowestVal).toNat ≤ magOf 0x37F0000030000000 ∧ magOf 0x7FEFFFFFFFFFFFFF < infMag ∧
      magOf 0x7FEFFFFFFFFFFFFF ≠ oneMag) := by decide +kernel

theorem witness_NaNOperandsCollapseToSignedInfinity :
    infMag < magOf 0xFFF0000000000001 ∧ 255 * 2 ^ 23 < (0x7F800001 : Word).toNat % 2 ^ 31 := by decide

theorem witness_MagnitudesBelowLowestValFlushToSignedZero :
    (0 < magOf 0x8000000000000001 ∧ magOf 0x8000000000000001 < lowMag Config.build823) ∧
    magOf 0x37F000002FFFFFFF < lowMag Config.build823 ∧ magOf 0x37F0000030000000 = lowMag Config.build823 := by decide

/-- The first word above `maxVal`, the largest finite word and a NaN. -/
theorem witness_ConstructionAboveMaxValSaturates :
    maxMag State.reset.config < magOf 0x47DFFFFFF0000001 ∧ maxMag State.reset.config < magOf 0x7FEFFFFFFFFFFFFF ∧
    maxMag State.reset.config < magOf 0x7FF8000000000000 := by decide

theorem witness_ValueOutcomesGiveTheirResults :
    valueOutcome Config.build823 (.qnt 0x47E0000000000000) = .overflow ∧
    valueOutcome Config.build823 (.qnt 0x7FF0000000000001) = .nanInput ∧
    valueOutcome Config.build823 (.qnt 0x37F000002FFFFFFF) = .underflow ∧
    valueOutcome Config.build823 (.cvtD 0x47DFFFFFF0000001) = .overflow ∧
    valueOutcome Config.build823 (.cvtD 0xFFF0000000000001) = .nanInput ∧
    valueOutcome Config.build823 (.cvtD 0x0000000000000001) = .underflow ∧
    valueOutcome Config.build823 (.cvtS 0xFF000000) = .overflow ∧
    valueOutcome Config.build823 (.cvtS 0x7F800001) = .nanInput ∧
    valueOutcome Config.build823 (.cvtS 0x00200000) = .underflow ∧
    valueOutcome smallest (.cvtW 0x80000000) = .overflow ∧
    valueOutcome Config.build823 (.dec 0x80000000) = .reservedCode := by decide +kernel

/-- The boundaries of a cell: its lower edge, its grid point, the word above that and its top word. -/
theorem witness_SnapIsTheMidpointOfTheCell :
    Config.build823.Legal ∧ (0x4000000000000000 : Word).toNat % 2 ^ Config.build823.shift = 0 ∧
    Config.build823.hubBit.toNat = (0x4000000010000000 : Word).toNat % 2 ^ Config.build823.shift ∧
    onGrid Config.build823 0x4000000010000000 ∧ ¬ onGrid Config.build823 0x4000000010000001 ∧
    Config.build823.hubBit.toNat ≤ (0x400000001FFFFFFF : Word).toNat % 2 ^ Config.build823.shift ∧
    smallest.Legal ∧ widest.Legal := by decide

theorem witness_QntSaturatesFromTheTopEdgeOfMaxValsCell :
    classOf State.reset.config 0x47E0000000000000 = .general ∧
    maxCellEdge State.reset.config = magOf 0x47E0000000000000 ∧
    classOf State.reset.config 0x47DFFFFFFFFFFFFF = .general ∧
    maxMag State.reset.config ≤ magOf 0x47DFFFFFFFFFFFFF ∧
    magOf 0x47DFFFFFFFFFFFFF < maxCellEdge State.reset.config ∧
    maxMag State.reset.config = magOf 0x47DFFFFFF0000000 := by decide +kernel

/-- A `QNT` answer off the grid, a construction outside the hub values, and a canonical code. -/
theorem witness_results :
    ¬ onGrid Config.build823 0x3FF0000000000000 ∧
    word? Config.build823 (.qnt 0x3FF0000000000000) = some 0x3FF0000000000000 ∧
    ¬ isHubValue Config.build823 0x37F0000010000000 ∧
    word? Config.build823 (.cvtD 0x37F0000040000000) = some 0x37F0000010000000 ∧
    isHubValue Config.build823 0x37F0000030000000 ∧ (encodeValue Config.build823 0x37F0000030000000).toNat = 1 := by
  decide +kernel

theorem witness_canonical_code : isCanonicalCode Config.build823 (operandCode Config.build823 1) :=
  ⟨0x37F0000030000000, by decide +kernel, by decide +kernel⟩

/-- Both ends of the operands of 70_reset_and_hazards.md R153, with either sign. -/
theorem witness_ConstructionCanFallBelowLowestVal :
    State.reset.config.Legal ∧ State.reset.config.preRound = .binary32 ∧
    ((nexp 0x37F0000030000001).toNat = 895 ∧ 0x30000000 < (nfrac 0x37F0000030000001).toNat ∧
      (nfrac 0x37F0000030000001).toNat ≤ 0x40000000) ∧
    ((nexp 0xB7F0000040000000).toNat = 895 ∧ (nfrac 0xB7F0000040000000).toNat = 0x40000000) := by decide

theorem witness_EveryCodeRoundTrips :
    (0xFFFFFFFF : Word).toNat < 2 ^ State.reset.config.codeBits ∧ ∃ t, exec (.dec 0xFFFFFFFF) State.reset = .next t :=
  ⟨by decide, answers _⟩

theorem witness_HubValuesRoundTripExceptTheUnityAlias :
    isHubValue State.reset.config 0x4000000010000000 ∧
    (∀ g, (0x4000000010000000 : Word) ≠ unityAlias State.reset.config g) ∧
    isHubValue State.reset.config (unityAlias State.reset.config 1) ∧
    ∃ t, exec (.enc (unityAlias State.reset.config 1)) State.reset = .next t :=
  ⟨by decide +kernel, by decide +kernel, by decide +kernel, answers _⟩

/-- The two ends of the open cell above one. -/
theorem witness_UnitySharesItsCode :
    (sign 0x3FF0000000000001 = 0 ∧ oneMag < magOf 0x3FF0000000000001) ∧
    (sign 0xBFF000001FFFFFFF = 1 ∧ magOf 0xBFF000001FFFFFFF < oneMag + 2 ^ State.reset.config.shift) := by decide

theorem witness_StrayAllOnesCodesDecodeAboveMaxVal :
    State.reset.config.maxvalExpField = 2 ^ State.reset.config.expBits - 2 ∧
    State.reset.config.maxvalFracField = 2 ^ State.reset.config.mantBits - 1 ∧
    (0x7F800000 : Word).toNat < 2 ^ State.reset.config.codeBits ∧
    codeE State.reset.config 0x7F800000 = 2 ^ State.reset.config.expBits - 1 ∧
    codeF State.reset.config 0x7F800000 ≠ 2 ^ State.reset.config.mantBits - 1 ∧
    (0xFFFFFFFE : Word).toNat < 2 ^ State.reset.config.codeBits ∧
    codeE State.reset.config 0xFFFFFFFE = 2 ^ State.reset.config.expBits - 1 ∧
    codeF State.reset.config 0xFFFFFFFE ≠ 2 ^ State.reset.config.mantBits - 1 ∧
    ∃ t, exec (.dec 0x7F800000) State.reset = .next t :=
  ⟨by decide, by decide, by decide, by decide, by decide, by decide, by decide, by decide, answers _⟩

/-- A build with the default reading of `maxVal` and one with the other; a code of each kind. -/
theorem witness_CanonicalCodesAreTheReservedAndInRangeCodes :
    Config.build823.Legal ∧ Config.build823.maxvalExpField = 2 ^ 8 - 2 ∧ Config.build823.maxvalFracField = 2 ^ 23 - 1 ∧
    0x7F800000 < 2 ^ Config.build823.codeBits ∧ altMax.Legal ∧
    isReservedCode Config.build823 0x7FFFFFFF ∧ inRange Config.build823 (decodeCode Config.build823 0x7F7FFFFF) ∧
    ¬ inRange Config.build823 (decodeCode Config.build823 0x7F800000) ∧
    inRange altMax (decodeCode altMax 0x7FFFFFFE) := by decide +kernel

theorem witness_MagnitudesOrderAsIntegers :
    magOf 0x8010000000000000 ≤ infMag ∧ magOf 0x7FF0000000000000 ≤ infMag := by decide

/-- The grid point (agree), the word above it (differ), in a general cell below the edge, for both pre-roundings. -/
theorem witness_CvtDAndQntAgreeInTheLowerHalfCell :
    897 ≤ (nexp 0x4000000010000000).toNat ∧ classOf Config.build823 0x4000000010000000 = .general ∧
    magOf 0x4000000010000001 < maxCellEdge Config.build823 ∧ classOf Config.build823 0x4000000010000001 = .general ∧
    build510.preRound = .mantBits ∧ classOf build510 0x3EF0060000000000 = .general ∧
    magOf 0x3EF0060000000000 < maxCellEdge build510 := by decide +kernel

/-- Both outcomes of `FMA` in 8/23: on the grid boundary and one bit off it. -/
theorem witness_FmaAnswersWhateverTheCorrection :
    ∃ A B : Arith, contractFma Config.build823 A 0 0 0 = .error .fmaCorrectionOpen ∧
      contractFma Config.build823 B 0 0 0 = .ok 0x4000000010000000 :=
  ⟨{ ieeeArith with fma64 := fun _ _ _ => 0x4000000000000000 },
   { ieeeArith with fma64 := fun _ _ _ => 0x4000000000000001 }, by decide +kernel, by decide +kernel⟩

/-- Words for each clause on natively generated NaNs, and native operations that return a NaN where `FMA` has a value. -/
theorem witness_NativeNaNsBecomeInfinities :
    (∃ A : Arith, isNaN (nativeBin A .add 0 0) ∧ isNaN (A.sqrt64 0) ∧ isNaN (A.fma64 0 0 0) ∧
      contractFma build510 A 0 0 0 = .ok 0xFFF0000000000000 ∧
      contractFma Config.build823 A 0 0 0 = .ok 0xFFF0000000000000) ∧
    (mag 0xFFF0000000000000 = mag PINF ∧ sign 0xFFF0000000000000 ≠ sign PINF) ∧
    mag 0x8000000000000000 = 0 ∧ (sign 0x8000000000000001 = 1 ∧ mag 0x8000000000000001 ≠ 0) ∧
    (mag 0xC000000010000000 ≠ 0 ∧ sign PINF ≠ sign PINF ^^^ sign 0xC000000010000000) :=
  ⟨⟨{ ieeeArith with add64 := fun _ _ => 0x7FF8000000000000, sqrt64 := fun _ => 0xFFF8000000000000,
                     fma64 := fun _ _ _ => 0xFFF8000000000001 },
    by decide +kernel, by decide +kernel, by decide +kernel, by decide +kernel, by decide +kernel⟩,
   by decide, by decide, by decide, by decide⟩

/-- A value whose two renderings are checked above, in a legal configuration. -/
theorem witness_RenderingsReadBackAsFieldsAndCode :
    Config.build823.Legal ∧ readDigits 1 "10000001".toList = 129 ∧ readDigits 4 "40800000".toList = 0x40800000 := by
  decide +kernel

end Sys2Proof.Tests
end

section
/-! SUPPORT. What finite words denote: the magnitude as a count of the smallest binary64 subnormal, which grows with the
number `mag` (00_scope.md R11), and the value of a general decoding (30_encoding.md R54). -/

namespace Sys2Proof.Machine

open Sys2Proof.Reference

/-- The finite value of a 63-bit magnitude in units of `2^-1074`, the smallest subnormal: the fraction alone in the lowest
binade, the significand scaled by its binade above it (30_encoding.md R50). -/
def subnormalUnits (m : Nat) : Nat :=
  if m / 2 ^ 52 = 0 then m % 2 ^ 52 else (2 ^ 52 + m % 2 ^ 52) * 2 ^ (m / 2 ^ 52 - 1)

theorem subnormalUnits_subnormal {f : Nat} (hf : f < 2 ^ 52) : subnormalUnits f = f := by
  rw [subnormalUnits, if_pos (Nat.div_eq_of_lt hf), Nat.mod_eq_of_lt hf]

theorem subnormalUnits_normal (k : Nat) {f : Nat} (hf : f < 2 ^ 52) :
    subnormalUnits ((k + 1) * 2 ^ 52 + f) = (2 ^ 52 + f) * 2 ^ k := by
  have hdiv : ((k + 1) * 2 ^ 52 + f) / 2 ^ 52 = k + 1 := by omega
  have hmod : ((k + 1) * 2 ^ 52 + f) % 2 ^ 52 = f := by omega
  rw [subnormalUnits, hdiv, hmod, if_neg (Nat.succ_ne_zero k), Nat.add_sub_cancel]

/-- A magnitude is subnormal, or it is a binade and a fraction. -/
theorem subnormal_or_normal (m : Nat) :
    m < 2 ^ 52 ∨ ∃ k f, f < 2 ^ 52 ∧ m = (k + 1) * 2 ^ 52 + f := by
  by_cases hm : m < 2 ^ 52
  · exact .inl hm
  · exact .inr ⟨m / 2 ^ 52 - 1, m % 2 ^ 52, Nat.mod_lt _ (Nat.two_pow_pos 52), by omega⟩

/-- Within a binade the next magnitude is one unit of the binade more; at a binade's top the significand wraps to the
next binade's start, which is the same step. -/
theorem subnormalUnits_strictMono : StrictMono subnormalUnits := by
  refine strictMono_nat_of_lt_succ fun m => ?_
  obtain hm | ⟨k, f, hf, rfl⟩ := subnormal_or_normal m
  · rw [subnormalUnits_subnormal hm]
    by_cases htop : m + 1 < 2 ^ 52
    · rw [subnormalUnits_subnormal htop]; omega
    · have hnext : m + 1 = (0 + 1) * 2 ^ 52 + 0 := by omega
      rw [hnext, subnormalUnits_normal 0 (by decide)]; omega
  · rw [subnormalUnits_normal k hf]
    by_cases htop : f + 1 < 2 ^ 52
    · rw [Nat.add_assoc, subnormalUnits_normal k htop]
      exact Nat.mul_lt_mul_of_pos_right (by omega) (Nat.two_pow_pos k)
    · have hnext : (k + 1) * 2 ^ 52 + f + 1 = (k + 1 + 1) * 2 ^ 52 + 0 := by omega
      rw [hnext, subnormalUnits_normal (k + 1) (by decide), Nat.pow_succ' (n := k), ← Nat.mul_assoc]
      exact Nat.mul_lt_mul_of_pos_right (by omega) (Nat.two_pow_pos k)

theorem magOf_eq_fields (a : Word) : magOf a = (nexp a).toNat * 2 ^ 52 + (nfrac a).toNat :=
  (mag_toNat a).symm.trans (mag_toNat_fields a)

/-- A word below infinity denotes its count of smallest subnormals. -/
theorem val_of_lt_infMag {a : Word} (h : magOf a < infMag) :
    val a = .finite (sign a) ((2 : ℚ) ^ (-1074 : Int) * subnormalUnits (magOf a)) := by
  have hf := (nfrac a).isLt
  rw [magOf_eq_fields] at h ⊢
  rw [infMag] at h
  unfold val
  generalize (nexp a).toNat = e at h ⊢
  generalize (nfrac a).toNat = f at h hf ⊢
  cases e with
  | zero =>
    have hunit : (2 : ℚ) ^ (-1022 : Int) = 2 ^ (-1074 : Int) * 2 ^ 52 := by
      rw [← zpow_natCast, ← zpow_add₀ two_ne_zero]; rfl
    rw [if_pos rfl, Nat.zero_mul, Nat.zero_add, subnormalUnits_subnormal hf, hunit, mul_assoc,
      mul_div_cancel₀ _ (by positivity)]
  | succ k =>
    have hunit : (2 : ℚ) ^ (((k + 1 : Nat) : Int) - 1023) = 2 ^ (-1074 : Int) * 2 ^ 52 * 2 ^ k := by
      rw [← zpow_natCast, ← zpow_natCast, ← zpow_add₀ two_ne_zero, ← zpow_add₀ two_ne_zero]
      congr 1
      push_cast
      ring
    rw [if_neg (Nat.succ_ne_zero k), if_neg (by omega), subnormalUnits_normal k hf, hunit]
    generalize (2 : ℚ) ^ (-1074 : Int) = unit
    push_cast
    congr 1
    field_simp
    norm_num

theorem val_of_eq_infMag {a : Word} (h : magOf a = infMag) : val a = .infinite (sign a) := by
  have hf := (nfrac a).isLt
  rw [magOf_eq_fields, infMag] at h
  have he : (nexp a).toNat = 2047 := by omega
  have hz : nfrac a = 0 := BitVec.eq_of_toNat_eq (show (nfrac a).toNat = 0 by omega)
  simp [val, he, hz]

/-- The magnitudes of two words that are not NaNs compare as the numbers `mag` do (00_scope.md R11). -/
theorem val_magLt_iff {a b : Word} (ha : magOf a ≤ infMag) (hb : magOf b ≤ infMag) :
    (val a).magLt (val b) ↔ magOf a < magOf b := by
  obtain ha | ha := ha.lt_or_eq
  · rw [val_of_lt_infMag ha]
    obtain hb | hb := hb.lt_or_eq
    · rw [val_of_lt_infMag hb, Denotation.magLt, mul_lt_mul_iff_right₀ (by positivity), Nat.cast_lt,
        subnormalUnits_strictMono.lt_iff_lt]
    · rw [val_of_eq_infMag hb, hb, Denotation.magLt]
      exact iff_of_true trivial ha
  · rw [val_of_eq_infMag ha, ha, Denotation.magLt]
    exact iff_of_false not_false (Nat.not_lt.2 hb)

/-- The value of a general decoding (30_encoding.md R54). -/
theorem val_gdec {c : Config} (h : c.Legal) (s : BitVec 1) {e f : Nat} (he : e < 2 ^ c.expBits)
    (hf : f < 2 ^ c.mantBits) :
    val (c.gdec s e f) =
      .finite s ((2 : ℚ) ^ ((e : Int) - c.customBias) * (1 + (f : ℚ) / 2 ^ c.mantBits + 1 / 2 ^ (c.mantBits + 1))) := by
  obtain ⟨hfrac, hlt⟩ := Config.gdec_fraction h hf
  obtain ⟨hlo, hhi⟩ := Config.rebased_lt h he
  have hexp : ((e + c.biasDiff : Nat) : Int) - 1023 = e - c.customBias := by have := h.biasDiff_eq; omega
  have hcell : (2 : ℚ) ^ c.shift = 2 * c.hubBit.toNat := by exact_mod_cast h.cell_width
  have hone : (2 : ℚ) ^ 52 = 2 ^ c.mantBits * 2 ^ c.shift := by exact_mod_cast h.pow_mant_shift.symm
  have hhub : (c.hubBit.toNat : ℚ) ≠ 0 := by exact_mod_cast (Config.hubBit_pos h).ne'
  rw [Config.gdec, hfrac, val_normal hlo hhi hlt, hexp, hone]
  push_cast
  rw [hcell]
  congr 2
  field_simp
  ring

end Sys2Proof.Machine
end

section
/-! The obligations of 00_scope.md: the magnitude order, the constants at reset, the legal configurations. -/

namespace Sys2Proof.Scope

open Sys2Proof.Machine Sys2Proof.Reference

/-- Settles O40: both clauses follow from the order of the two magnitudes, taken in each direction. -/
theorem magnitudesOrderAsIntegers : Obligations.MagnitudesOrderAsIntegers := by
  intro a b ha hb
  have hab := val_magLt_iff ha hb
  have hba := val_magLt_iff hb ha
  refine ⟨hab, ?_⟩
  rw [hab, hba]
  omega

/-- The value of `lowestVal` in the default build (00_scope.md R9). -/
theorem val_lowestVal_build823 :
    val Config.build823.lowestVal = .finite 0 ((2 : ℚ) ^ (-128 : Int) * (1 + 3 * (2 : ℚ) ^ (-24 : Int))) := by
  rw [Config.lowestVal, val_gdec Config.build823_legal 0 (by decide) (by decide)]
  norm_num [Config.build823, Config.customBias]

/-- The value of `maxVal` in the default build (00_scope.md R9). -/
theorem val_maxVal_build823 :
    val Config.build823.maxVal = .finite 0 ((2 : ℚ) ^ (126 : Int) * (2 - (2 : ℚ) ^ (-24 : Int))) := by
  rw [Config.maxVal, val_gdec Config.build823_legal 0 (by decide) (by decide)]
  norm_num [Config.build823, Config.customBias]

/-- Settles O2: the words by evaluating the constants, the values by `val_gdec`, the decimals by arithmetic. -/
theorem resetHoldsTheDefaultConstants : Obligations.ResetHoldsTheDefaultConstants := by
  refine ⟨rfl, rfl, rfl, rfl, by decide, by decide, by decide, by decide, by decide, by decide, by decide, by decide,
    by decide, val_lowestVal_build823, val_maxVal_build823, ?_, ?_⟩
  · rw [abs_le]; norm_num
  · rw [abs_le]; norm_num

/-- Settles O9: `State.respond`, through which every operation answers, refuses. -/
theorem illegalConfigurationIsRefused : Obligations.IllegalConfigurationIsRefused :=
  fun _ i h => exec_illegal h i

/-- Settles O43: the bounds on the widths give those on the rebased exponents, the cell and the unity code. -/
theorem legalParametersAreWellFormed : Obligations.LegalParametersAreWellFormed := by
  intro c h
  have hexp : 2 ^ c.expBits = 2 * c.customBias := h.pow_expBits
  obtain ⟨hbias, _⟩ := h.customBias_bounds
  have hmant := h.one_lt_pow_mant
  refine ⟨fun e he => Config.rebased_lt h ?_, h.shift_bounds.1, Config.hubBit_toNat h, ?_, Nat.two_pow_pos _, ?_⟩
  · unfold Config.customMaxExp at he; omega
  · rw [ones_eq]; omega
  · show c.customBias < 2 ^ c.expBits - 1
    omega

end Sys2Proof.Scope
end

section
/-! SUPPORT. What stands at the response ports after an operation, and which derived constants are hub values
(10_state.md). -/

namespace Sys2Proof.Machine

open Sys2Proof.Reference

/-- Only `XBF` answers with a record, that of its operand. -/
theorem responseRecord_eq_some {c : Config} {i : Instr} {b : BitFields} :
    responseRecord c i = some b ↔ ∃ a, i = .xbf a ∧ extractFields c a = b := by
  cases i <;> simp [responseRecord]

theorem responseRecord_eq_none {c : Config} {i : Instr} (h : ∀ a, i ≠ .xbf a) : responseRecord c i = none := by
  rw [Option.eq_none_iff_forall_ne_some]
  intro b hb
  obtain ⟨a, hi, _⟩ := responseRecord_eq_some.1 hb
  exact h a hi

theorem fits_extractFields {c : Config} (h : c.Legal) (v : Word) : (extractFields c v).Fits c :=
  (extractFields_fits h v).2

/-- A record that fits its widths packs to a code of `N` bits (30_encoding.md R57). -/
theorem BitFields.Fits.packCode_lt {c : Config} {b : BitFields} (hb : b.Fits c) :
    packCode c b.sign b.cExp b.cFrac < 2 ^ c.codeBits := by
  obtain ⟨hexp, hfrac, _⟩ := hb
  exact Machine.packCode_lt c b.sign hexp hfrac

theorem BitFields.Fits.packFields_toNat {c : Config} (h : c.Legal) {b : BitFields} (hb : b.Fits c) :
    (packFields c b).toNat = packCode c b.sign b.cExp b.cFrac := by
  obtain ⟨hexp, hfrac, _⟩ := hb
  exact Machine.packFields_toNat h hexp hfrac

/-- `GDEC` by its fields, as the number of the whole word (41_construct.md R87). -/
theorem gdec_toNat {c : Config} (h : c.Legal) (s : BitVec 1) {e f : Nat} (he : e < 2 ^ c.expBits)
    (hf : f < 2 ^ c.mantBits) : (c.gdec s e f).toNat = s.toNat * 2 ^ 63 + codeMag c e f := by
  have hhub : c.hubBit.toNat = 2 ^ (51 - c.mantBits) := by
    rw [Config.hubBit_toNat h, Config.shift, Nat.sub_right_comm]
  rw [word_toNat, Config.sign_gdec, Config.mag_gdec h s he hf, hhub, codeMag, ← Config.shift, Nat.add_assoc _ (f * _)]

/-- A general decoding in range is a hub value (10_state.md R21 (b)). -/
theorem gdec_isHubValue {c : Config} (h : c.Legal) (s : BitVec 1) {e f : Nat} (he : e < 2 ^ c.expBits)
    (hf : f < 2 ^ c.mantBits) (hr : inRange c (c.gdec s e f)) : isHubValue c (c.gdec s e f) :=
  .inr ⟨gdec_isGridPoint h s he hf, hr⟩

theorem maxVal_fields_lt {c : Config} (h : c.Legal) :
    c.maxvalExpField < 2 ^ c.expBits ∧ c.maxvalFracField < 2 ^ c.mantBits := by
  obtain ⟨-, -, ⟨-, hfit⟩, -⟩ := h
  exact hfit

theorem lowestVal_le_maxVal {c : Config} (h : c.Legal) : mag c.lowestVal ≤ mag c.maxVal := by
  rw [mag_le_iff]
  exact ((Config.lowestVal_lt_one h).trans (Config.one_lt_maxVal h).1).le

theorem lowestVal_isHubValue {c : Config} (h : c.Legal) : isHubValue c c.lowestVal :=
  gdec_isHubValue h 0 (Nat.two_pow_pos _) h.one_lt_pow_mant ⟨BitVec.le_refl _, lowestVal_le_maxVal h⟩

theorem maxVal_isHubValue {c : Config} (h : c.Legal) : isHubValue c c.maxVal := by
  obtain ⟨hexp, hfrac⟩ := maxVal_fields_lt h
  exact gdec_isHubValue h 0 hexp hfrac ⟨lowestVal_le_maxVal h, BitVec.le_refl _⟩

/-- `minVal` is in range because its magnitude is that of `maxVal`. -/
theorem minVal_isHubValue {c : Config} (h : c.Legal) : isHubValue c c.minVal := by
  obtain ⟨hexp, hfrac⟩ := maxVal_fields_lt h
  refine gdec_isHubValue h 1 hexp hfrac ?_
  rw [← Config.minVal, inRange, Config.mag_minVal]
  exact ⟨lowestVal_le_maxVal h, BitVec.le_refl _⟩

/-- The named specials are hub values (10_state.md R29): three special values and three general decodings in range. -/
theorem namedSpecials_isHubValue {c : Config} (h : c.Legal) : ∀ v ∈ namedSpecials c, isHubValue c v := by
  simp only [namedSpecials, List.forall_mem_cons]
  exact ⟨.inl (.inl (by decide)), .inl (.inr (.inr rfl)), .inl (.inr (.inl rfl)), maxVal_isHubValue h,
    minVal_isHubValue h, lowestVal_isHubValue h, List.forall_mem_nil _⟩

end Sys2Proof.Machine
end

section
/-! The obligations of 10_state.md: the invariant, the derived constants, what an operation leaves unchanged and what its
response depends on. -/

namespace Sys2Proof.PortState

open Sys2Proof.Machine Sys2Proof.Reference

/-- Settles O7: a record at the response port after a step is that of an `XBF` operand, so it fits, and the response
word is its packing. -/
theorem everyStepKeepsTheInvariant : Obligations.EveryStepKeepsTheInvariant := by
  intro s t _ hstep
  obtain ⟨hlegal, rfl⟩ := exec_next hstep
  refine ⟨hlegal, fun b hb => ?_⟩
  obtain ⟨a, hi, rfl⟩ := responseRecord_eq_some.1 hb
  have hfits := fits_extractFields hlegal a
  have hpack : (encodeValue s.config a).toNat = _ := hfits.packFields_toNat hlegal
  simp only [hi, responseWord]
  exact ⟨hfits, hpack, hpack ▸ hfits.packCode_lt⟩

/-- Settles O44: each constant is a general decoding with fields that fit, at or between `lowestVal` and `maxVal` in
magnitude. -/
theorem derivedConstantsAreHubValues : Obligations.DerivedConstantsAreHubValues := by
  intro c h
  obtain ⟨hexp, hfrac⟩ := maxVal_fields_lt h
  exact ⟨(gdec_toNat h 0 (Nat.two_pow_pos _) h.one_lt_pow_mant).trans (Nat.zero_add _),
    (gdec_toNat h 0 hexp hfrac).trans (Nat.zero_add _), gdec_toNat h 1 hexp hfrac,
    gdec_isGridPoint h 0 hexp hfrac, namedSpecials_isHubValue h⟩

/-- Settles O3: the default build is legal, and no record stands at the port at reset. -/
theorem resetSatisfiesTheInvariant : Obligations.ResetSatisfiesTheInvariant :=
  ⟨Config.build823_legal, fun b hb => by simp at hb⟩

/-- Settles O10: an answered operation has written the response ports only (`exec_next`). -/
theorem operationsWriteOnlyTheResponsePorts : Obligations.OperationsWriteOnlyTheResponsePorts := by
  intro s t i hexec
  obtain ⟨_, rfl⟩ := exec_next hexec
  exact ⟨rfl, rfl, rfl, rfl, rfl, responseRecord_eq_none⟩

/-- Settles O11: the response is a function of the configuration and the request, and replaces what stood at the
response ports. -/
theorem responsesDependOnRequestAndConstantsOnly : Obligations.ResponsesDependOnRequestAndConstantsOnly := by
  constructor
  · intro s t i j hexec
    obtain ⟨hlegal, rfl⟩ := exec_next hexec
    exact (exec_legal (s := { s with y := _, bf := _ }) hlegal j).trans (exec_legal hlegal j).symm
  · intro s s' t i hconfig hexec
    obtain ⟨hlegal, rfl⟩ := exec_next hexec
    exact ⟨_, exec_legal (hconfig ▸ hlegal) i, by rw [hconfig], by rw [hconfig]⟩

end Sys2Proof.PortState
end

section
/-! SUPPORT. The two fields of a request word, and the decoder as a function of them (30_encoding.md R56). -/

namespace Sys2Proof

/-- The operation select `op`, bits 66:64 of the request (R56). -/
def selectField (w : RequestWord) : BitVec 3 := w.extractLsb' 64 3

theorem getLsbD_selectField (w : RequestWord) {k : Nat} (h : k < 3) :
    (selectField w).getLsbD k = w.getLsbD (64 + k) := by
  simp [selectField, h]

/-- A request word is its two fields: no bit of the 67 is left out. -/
theorem selectField_append_operandField (w : RequestWord) : selectField w ++ operandField w = w := by
  apply BitVec.eq_of_getLsbD_eq
  intro k hk
  rw [BitVec.getLsbD_append]
  split
  · simp [operandField, *]
  · rw [getLsbD_selectField w (by omega)]
    congr 1
    omega

theorem operandField_eq_ofNat (w : RequestWord) : operandField w = BitVec.ofNat 64 (w.toNat % 2 ^ 64) := by
  apply BitVec.eq_of_toNat_eq
  simp [operandField, BitVec.extractLsb'_toNat]

theorem selectField_encode (i : Instr) : selectField (encode i) = i.opcode.code := by
  apply BitVec.eq_of_getLsbD_eq
  intro k hk
  rw [getLsbD_selectField _ hk, encode_selectBit]

theorem encode_request (op : Opcode) (a : Word) : encode (op.request a) = op.code ++ a := by
  cases op <;> rfl

/-- Every value of the select field is an operation's code: "there is no reserved, illegal or hint operation code"
(R56). -/
theorem exists_opcode_code (b : BitVec 3) : ∃ op : Opcode, b = op.code := by
  have hb : b = 0 ∨ b = 1 ∨ b = 2 ∨ b = 3 ∨ b = 4 ∨ b = 5 ∨ b = 6 ∨ b = 7 := by
    revert b; decide
  obtain rfl | rfl | rfl | rfl | rfl | rfl | rfl | rfl := hb
  exacts [⟨.qnt, rfl⟩, ⟨.cvtD, rfl⟩, ⟨.cvtS, rfl⟩, ⟨.cvtW, rfl⟩, ⟨.dec, rfl⟩, ⟨.xbf, rfl⟩, ⟨.enc, rfl⟩, ⟨.rdD, rfl⟩]

/-- The decoder by the two fields: the operation of the select field, with the operand field. -/
theorem decodeRequest_of_selectField {w : RequestWord} {op : Opcode} (h : selectField w = op.code) :
    decodeRequest w = op.request (operandField w) := by
  have hbit {k : Nat} (hk : k < 3) : w.getLsbD (64 + k) = op.code.getLsbD k := by
    rw [← h, getLsbD_selectField w hk]
  have h64 := hbit (k := 0) (by decide)
  have h65 := hbit (k := 1) (by decide)
  have h66 := hbit (k := 2) (by decide)
  rw [decodeRequest, h64, h65, h66]
  cases op <;> rfl

theorem decodeRequest_encode (i : Instr) : decodeRequest (encode i) = i := by
  rw [decodeRequest_of_selectField (selectField_encode i), operandField_encode, opcode_request]

theorem decodeRequest_eq_of_encode {i : Instr} {w : RequestWord} (h : encode i = w) : decodeRequest w = i := by
  rw [← h, decodeRequest_encode]

theorem encode_decodeRequest (w : RequestWord) : encode (decodeRequest w) = w := by
  obtain ⟨op, hop⟩ := exists_opcode_code (selectField w)
  rw [decodeRequest_of_selectField hop, encode_request, ← hop, selectField_append_operandField]

/-- The decoder of numbers is the decoder of request words on a word's number. -/
theorem decode_toNat (w : RequestWord) : decode w.toNat = .ok (decodeRequest w) := by
  rw [decode, if_pos w.isLt, BitVec.ofNat_toNat, BitVec.setWidth_eq]

theorem Instr.wf_eq_true (i : Instr) : i.wf = true := by
  cases i <;> rfl

/-- The mask of the opcode table keeps the select field. -/
theorem selectField_of_masked {w row : RequestWord} (h : w &&& 0x70000000000000000 = row) :
    selectField w = selectField row := by
  have hmask : selectField 0x70000000000000000 = BitVec.allOnes 3 := by decide
  rw [← h, selectField, selectField, BitVec.extractLsb'_and, ← selectField, ← selectField, hmask, BitVec.and_allOnes]

/-- A row of the opcode table: a word whose masked bits are those of the row decodes to the row's operation. -/
theorem decodeRequest_of_masked {w row : RequestWord} {op : Opcode} (h : w &&& 0x70000000000000000 = row)
    (hrow : selectField row = op.code) : decodeRequest w = op.request (BitVec.ofNat 64 (w.toNat % 2 ^ 64)) := by
  rw [decodeRequest_of_selectField ((selectField_of_masked h).trans hrow), operandField_eq_ofNat]

end Sys2Proof
end

section
/-! SUPPORT. What an operation reads of its operand (30_encoding.md R57), and the round trip of a code and what makes it
canonical (30_encoding.md R55). -/

namespace Sys2Proof.Machine

theorem operand32_eq_ofNat (a : Word) : operand32 a = BitVec.ofNat 32 (a.toNat % 2 ^ 32) := by
  apply BitVec.eq_of_toNat_eq
  simp [operand32, BitVec.extractLsb'_toNat]

theorem operandInt_congr {c : Config} {a b : Word} (h : a.toNat % 2 ^ c.intWidth = b.toNat % 2 ^ c.intWidth) :
    operandInt c a = operandInt c b := by
  have hw : a.setWidth c.intWidth = b.setWidth c.intWidth := by
    apply BitVec.eq_of_toNat_eq
    rw [BitVec.toNat_setWidth, BitVec.toNat_setWidth, h]
  rw [operandInt, operandInt, hw]

/-- Operations with the same response word and record are the same. -/
theorem exec_congr {s : State} {i j : Instr} (hy : responseWord s.config i = responseWord s.config j)
    (hbf : responseRecord s.config i = responseRecord s.config j) : exec i s = exec j s := by
  rw [exec_eq_respond, exec_eq_respond, hy, hbf]

/-- A packed code has no bit from position `N` up (R57). -/
theorem encodeValue_lt {c : Config} (h : c.Legal) (v : Word) : (encodeValue c v).toNat < 2 ^ c.codeBits := by
  have hfits := fits_extractFields h v
  rw [encodeValue, hfits.packFields_toNat h]
  exact hfits.packCode_lt

/-- A code that is not reserved is decoded by the general decoding (41_construct.md R86). -/
theorem decodeCode_of_not_reserved {c : Config} {u : Nat} (hu : ¬ isReservedCode c u) :
    decodeCode c u = c.gdec (codeSign c u) (codeExp c u) (codeFrac c u) := by
  obtain ⟨he, hf, -⟩ | ⟨he, hf, -⟩ | ⟨he, hf, -⟩ | ⟨-, hdec⟩ := decodeCode_cases c u
  · exact absurd (.inl ⟨he, hf⟩) hu
  · exact absurd (.inr (.inl ⟨he, hf⟩)) hu
  · exact absurd (.inr (.inr ⟨he, hf⟩)) hu
  · exact hdec

/-- A code that is not reserved denotes its midpoint value (30_encoding.md R54). -/
theorem val_decodeCode {c : Config} (h : c.Legal) {u : Nat} (hu : ¬ isReservedCode c u) :
    val (decodeCode c u) = codeVal c u := by
  rw [decodeCode_of_not_reserved hu, val_gdec h _ (codeExp_lt c u) (codeFrac_lt c u), codeVal]

/-- A reserved code decodes to a special value (30_encoding.md R53). -/
theorem decodeCode_isSpecial {c : Config} {u : Nat} (hu : isReservedCode c u) : isSpecial (decodeCode c u) := by
  obtain ⟨-, -, hdec⟩ | ⟨-, -, hdec⟩ | ⟨-, -, hdec⟩ | ⟨hne, -⟩ := decodeCode_cases c u
  · exact .inl (by rw [hdec, mag_signedZero])
  · exact .inr (.inr (by rw [hdec, mag_signedOne]))
  · exact .inr (.inl (by rw [hdec, mag_signedInf]))
  · exact absurd hu hne

/-- Packing the decoded value of a code gives the code back (44_extract_format.md R127, first part). -/
theorem encodeValue_decodeCode {c : Config} (h : c.Legal) {u : Nat} (hu : u < 2 ^ c.codeBits) :
    (encodeValue c (decodeCode c u)).toNat = u := by
  have hpack := packCode_fields c hu
  obtain ⟨he, hf, hdec⟩ | ⟨he, hf, hdec⟩ | ⟨he, hf, hdec⟩ | ⟨-, hdec⟩ := decodeCode_cases c u
  · rw [he, hf] at hpack
    rwa [encodeValue_toNat h, hdec, extractFields_zero (mag_signedZero _), sign_signedZero]
  · rw [he, hf] at hpack
    rwa [encodeValue_toNat h, hdec, extractFields_one (mag_signedOne _), sign_signedOne]
  · rw [he, hf] at hpack
    rwa [encodeValue_toNat h, hdec, extractFields_inf (mag_signedInf _), sign_signedInf]
  · rwa [hdec, encodeValue_gdec h _ (codeExp_lt c u) (codeFrac_lt c u)]

/-- The code of a special value is reserved (30_encoding.md R53). -/
theorem isReservedCode_encodeValue {c : Config} (h : c.Legal) {v : Word} (hv : isSpecial v) :
    isReservedCode c (encodeValue c v).toNat := by
  obtain ⟨-, he, hf, -⟩ := extractFields_fits h v
  obtain ⟨-, hexp, hfrac⟩ := fields_packCode c (sign v) he hf
  rw [isReservedCode, encodeValue_toNat h, hexp, hfrac]
  obtain hv | hv | hv := hv
  · rw [extractFields_zero hv]; exact .inl ⟨rfl, rfl⟩
  · rw [extractFields_inf hv]; exact .inr (.inr ⟨rfl, rfl⟩)
  · rw [extractFields_one hv]; exact .inr (.inl ⟨rfl, rfl⟩)

/-- The fields of a general decoding survive packing, so its code decodes to it unless the reserved patterns of R53 take
the code. -/
theorem decodeCode_encodeValue_gdec {c : Config} (h : c.Legal) (s : BitVec 1) {e f : Nat} (he : e < 2 ^ c.expBits)
    (hf : f < 2 ^ c.mantBits) (hu : ¬ isReservedCode c (encodeValue c (c.gdec s e f)).toNat) :
    decodeCode c (encodeValue c (c.gdec s e f)).toNat = c.gdec s e f := by
  obtain ⟨hs', he', hf'⟩ := fields_packCode c s he hf
  rw [decodeCode_of_not_reserved hu, encodeValue_gdec h s he hf, hs', he', hf']

/-- Canonical codes (R55): the code of a hub value is that of a special value or of a general decoding in range, and
the decoded value of such a code is a hub value with that code. -/
theorem isCanonicalCode_iff {c : Config} (h : c.Legal) {u : Nat} (hu : u < 2 ^ c.codeBits) :
    isCanonicalCode c u ↔ isReservedCode c u ∨ inRange c (decodeCode c u) := by
  constructor
  · rintro ⟨v, hv | ⟨hgrid, hrange⟩, rfl⟩
    · exact .inl (isReservedCode_encodeValue h hv)
    · obtain ⟨e, f, he, hf, hgdec⟩ := inRange_eq_gdec h hgrid hrange
      refine or_iff_not_imp_left.2 fun hne => ?_
      rw [hgdec] at hne hrange ⊢
      rwa [decodeCode_encodeValue_gdec h _ he hf hne]
  · intro hcode
    refine ⟨decodeCode c u, ?_, encodeValue_decodeCode h hu⟩
    by_cases hres : isReservedCode c u
    · exact .inl (decodeCode_isSpecial hres)
    · have hrange := hcode.resolve_left hres
      rw [decodeCode_of_not_reserved hres] at hrange ⊢
      exact gdec_isHubValue h _ (codeExp_lt c u) (codeFrac_lt c u) hrange

/-- A code that is not reserved has its value in range exactly when its fields are not above those of `maxVal`: it is
never below `lowestVal`, whose code is the first after that of zero. -/
theorem inRange_decodeCode_iff {c : Config} (h : c.Legal) {u : Nat} (hu : ¬ isReservedCode c u) :
    inRange c (decodeCode c u) ↔
      codeExp c u < c.maxvalExpField ∨ (codeExp c u = c.maxvalExpField ∧ codeFrac c u ≤ c.maxvalFracField) := by
  obtain ⟨hmaxExp, hmaxFrac⟩ := maxVal_fields_lt h
  have hnonzero : 0 < codeExp c u ∨ 0 = codeExp c u ∧ 1 ≤ codeFrac c u := by
    have hzero := (not_or.1 hu).1
    omega
  rw [decodeCode_of_not_reserved hu, inRange, mag_le_iff, mag_le_iff, Config.lowestVal, Config.maxVal,
    gdec_mag_le_iff h (Nat.two_pow_pos _) h.one_lt_pow_mant (codeExp_lt c u) (codeFrac_lt c u),
    gdec_mag_le_iff h (codeExp_lt c u) (codeFrac_lt c u) hmaxExp hmaxFrac]
  exact and_iff_right hnonzero

/-- Of the codes with the exponent field all-ones only infinity's is reserved: the exponent field of one is smaller. -/
theorem isReservedCode_allOnes_iff {c : Config} (h : c.Legal) {u : Nat} (he : codeExp c u = 2 ^ c.expBits - 1) :
    isReservedCode c u ↔ codeFrac c u = 2 ^ c.mantBits - 1 := by
  have hexp := h.pow_exp
  obtain ⟨hbias, -⟩ := h.customBias_bounds
  rw [Config.customBias] at hbias
  rw [isReservedCode, he, ones_eq, ones_eq]
  omega

/-- Under the default reading of `maxVal` (10_state.md R22), the codes that are not canonical are the stray all-ones codes
(R55). -/
theorem not_isCanonicalCode_iff {c : Config} (h : c.Legal) {u : Nat} (hu : u < 2 ^ c.codeBits)
    (hmaxExp : c.maxvalExpField = 2 ^ c.expBits - 2) (hmaxFrac : c.maxvalFracField = 2 ^ c.mantBits - 1) :
    ¬ isCanonicalCode c u ↔ codeExp c u = 2 ^ c.expBits - 1 ∧ codeFrac c u ≠ 2 ^ c.mantBits - 1 := by
  have he := codeExp_lt c u
  have hf := codeFrac_lt c u
  have hallOnes := isReservedCode_allOnes_iff (u := u) h
  rw [isCanonicalCode_iff h hu]
  by_cases hres : isReservedCode c u
  · exact iff_of_false (not_not.2 (.inl hres)) fun ⟨hexp, hfrac⟩ => hfrac ((hallOnes hexp).1 hres)
  · rw [inRange_decodeCode_iff h hres, hmaxExp, hmaxFrac]
    have hfrac : codeExp c u = 2 ^ c.expBits - 1 → codeFrac c u ≠ 2 ^ c.mantBits - 1 :=
      fun hexp => (hallOnes hexp).not.1 hres
    simp only [hres, false_or]
    omega

end Sys2Proof.Machine
end

section
/-! The obligations of 30_encoding.md: the request format, the operand forms and the compact codes. -/

namespace Sys2Proof.Encoding

open Sys2Proof.Machine Sys2Proof.Reference

/-- Settles O6: the decoder and the encoder both go by the two fields of the request word. -/
theorem decodeAndEncodeAgree : Obligations.DecodeAndEncodeAgree := by
  constructor
  · intro i _
    exact ⟨decodeRequest_encode i, by rw [decode_toNat, decodeRequest_encode]⟩
  · intro w
    exact ⟨encode_decodeRequest w, Instr.wf_eq_true _⟩

/-- Settles O18: a code that is not reserved has the value `codeVal`; for 8/23 that is evaluated at the build's
constants. -/
theorem generalCodesDenoteMidpoints : Obligations.GeneralCodesDenoteMidpoints := by
  constructor
  · intro c u h _ hu
    rw [val_decodeCode h hu, codeVal, Config.customBias]
    push_cast
    rfl
  · intro u _ hu
    rw [val_decodeCode Config.build823_legal hu, codeVal, codeExp_eq, codeFrac_eq]
    show Denotation.finite _ ((2 : ℚ) ^ ((u / 2 ^ 23 % 2 ^ 8 : Nat) - (128 : Nat) : Int) *
      (1 + ((u % 2 ^ 23 : Nat) : ℚ) / 2 ^ 23 + 1 / 2 ^ (23 + 1))) = _
    rw [div_eq_mul_inv, one_div, ← zpow_natCast, ← zpow_natCast, ← zpow_neg, ← zpow_neg]
    rfl

/-- Settles O22: each operation reads its operand through the form of R57, and a packed code fits `N` bits. -/
theorem bitsAboveTheOperandAreIgnored : Obligations.BitsAboveTheOperandAreIgnored := by
  intro s a b
  refine ⟨fun h => exec_congr ?_ rfl, fun h => exec_congr ?_ rfl, fun h => exec_congr ?_ rfl, ?_⟩
  · simp only [responseWord, operand32_eq_ofNat, h]
  · simp only [responseWord, operandInt_congr h]
  · simp only [responseWord, operandCode_eq, h]
  · rintro t (hexec | hexec) <;>
    · obtain ⟨hlegal, rfl⟩ := exec_next hexec
      exact encodeValue_lt hlegal a

/-- Settles O39: canonical codes by the decoded value, and under the default `maxVal` by the fields. -/
theorem canonicalCodesAreTheReservedAndInRangeCodes : Obligations.CanonicalCodesAreTheReservedAndInRangeCodes :=
  fun _ _ h hu => ⟨isCanonicalCode_iff h hu, not_isCanonicalCode_iff h hu⟩

/-- Settles O1: the step decodes the word at the port, which is the encoded instruction; a request word fits the table's
width. -/
theorem stepRunsTheOfferedRequest : Obligations.StepRunsTheOfferedRequest := by
  refine ⟨fun s i _ hport => ?_, fun _ _ => rfl, fun s i nbits hbits => ?_⟩
  · rw [step, hport, decodeRequest_encode]
  · have hfits : (encode i).toNat < 2 ^ nbits :=
      (encode i).isLt.trans_le (Nat.pow_le_pow_right (by decide) hbits)
    rw [State.withFetchWord, State.offer, Nat.mod_eq_of_lt hfits, BitVec.ofNat_toNat, BitVec.setWidth_eq]

/-- Settles O4: each word is the encoding of its request. -/
theorem requestWordsOfTheSpecDecode : Obligations.RequestWordsOfTheSpecDecode :=
  ⟨decodeRequest_eq_of_encode (by decide), decodeRequest_eq_of_encode (by decide),
    decodeRequest_eq_of_encode (by decide), decodeRequest_eq_of_encode (by decide),
    decodeRequest_eq_of_encode (by decide), decodeRequest_eq_of_encode (by decide),
    decodeRequest_eq_of_encode (by decide), decodeRequest_eq_of_encode (by decide)⟩

/-- Settles O5: the mask keeps the select field, and each row's select field is its operation's code. -/
theorem opcodeTableRowsSelectTheOperation : Obligations.OpcodeTableRowsSelectTheOperation := by
  intro w
  exact ⟨fun h => decodeRequest_of_masked (op := .qnt) h (by decide),
    fun h => decodeRequest_of_masked (op := .cvtD) h (by decide),
    fun h => decodeRequest_of_masked (op := .cvtS) h (by decide),
    fun h => decodeRequest_of_masked (op := .cvtW) h (by decide),
    fun h => decodeRequest_of_masked (op := .dec) h (by decide),
    fun h => decodeRequest_of_masked (op := .xbf) h (by decide),
    fun h => decodeRequest_of_masked (op := .enc) h (by decide),
    fun h => decodeRequest_of_masked (op := .rdD) h (by decide)⟩

end Sys2Proof.Encoding
end

section
/-! SUPPORT. `CLASS`, `SPECIAL` and the answers on special values and grid points in terms of the number `mag`
(40_special_cases.md R70 to R74). -/

namespace Sys2Proof.Machine

open Sys2Proof.Reference

theorem ofSignMag_eq_word (s : BitVec 1) (m : BitVec 63) : ofSignMag s m = word s.toNat m.toNat := by
  rw [word, ← ofSignMag_toNat, BitVec.ofNat_toNat, BitVec.setWidth_eq]

theorem signedInf_sign (d : Word) : signedInf (sign d) = word (signOf d) infMag := by
  rw [signedInf, ofSignMag_eq_word, mag_PINF_toNat, sign_toNat, signOf, infMag]

theorem signedZero_sign (d : Word) : signedZero (sign d) = word (signOf d) 0 := by
  rw [signedZero, ofSignMag_eq_word, sign_toNat, signOf]
  rfl

theorem isSpecial_iff_magOf (d : Word) : isSpecial d ↔ magOf d = 0 ∨ magOf d = infMag ∨ magOf d = oneMag := by
  rw [isSpecial, mag_eq_iff, mag_eq_iff, mag_eq_iff, mag_PINF_toNat, mag_ONE_toNat, mag_toNat]
  rfl

/-- The magnitude of `GDEC` is that of its code, whatever the sign (41_construct.md R87). -/
theorem mag_gdec_eq_codeMag {c : Config} (h : c.Legal) (s : BitVec 1) {e f : Nat} (he : e < 2 ^ c.expBits)
    (hf : f < 2 ^ c.mantBits) : (mag (c.gdec s e f)).toNat = codeMag c e f := by
  have hword := gdec_toNat h s he hf
  rw [word_toNat, Config.sign_gdec] at hword
  omega

theorem mag_lowestVal_eq_lowMag {c : Config} (h : c.Legal) : (mag c.lowestVal).toNat = lowMag c :=
  mag_gdec_eq_codeMag h 0 (Nat.two_pow_pos _) h.one_lt_pow_mant

/-- The landmarks of `CLASS` are in order (R70). -/
theorem landmarks_ordered {c : Config} (h : c.Legal) : 0 < lowMag c ∧ lowMag c < oneMag ∧ oneMag < infMag := by
  rw [← mag_lowestVal_eq_lowMag h]
  exact ⟨Config.lowestVal_pos h, Config.lowestVal_lt_one h, by decide⟩

/-- The magnitudes of each class (R70). -/
def classMagnitudes (c : Config) : Class → Nat → Prop
  | .zero, m => m = 0
  | .inf, m => m = infMag
  | .one, m => m = oneMag
  | .nan, m => infMag < m
  | .tiny, m => 0 < m ∧ m < lowMag c
  | .general, m => lowMag c ≤ m ∧ m < infMag ∧ m ≠ oneMag

/-- `CLASS` as tests on the number `mag(d)`, in the rule's order (R70). -/
theorem classOf_eq_magOf {c : Config} (h : c.Legal) (d : Word) :
    classOf c d =
      if magOf d = 0 then .zero
      else if magOf d = infMag then .inf
      else if magOf d = oneMag then .one
      else if infMag < magOf d then .nan
      else if magOf d < lowMag c then .tiny
      else .general := by
  rw [classOf_eq, mag_lowestVal_eq_lowMag h, mag_toNat]
  rfl

/-- The tests meet each class on its magnitudes only: what passed an earlier test is excluded, and the landmarks are
in order. -/
theorem classOf_eq_iff {c : Config} (h : c.Legal) (d : Word) (k : Class) :
    classOf c d = k ↔ classMagnitudes c k (magOf d) := by
  obtain ⟨hlow, hone, hinf⟩ := landmarks_ordered h
  rw [classOf_eq_magOf h]
  generalize magOf d = m
  constructor
  · rintro rfl
    split_ifs <;> simp only [classMagnitudes] <;> omega
  · intro hm
    cases k <;> simp only [classMagnitudes] at hm
    case zero => rw [if_pos hm]
    case inf => rw [if_neg (by omega), if_pos hm]
    case one => rw [if_neg (by omega), if_neg (by omega), if_pos hm]
    case nan => rw [if_neg (by omega), if_neg (by omega), if_neg (by omega), if_pos hm]
    case tiny =>
      rw [if_neg (by omega), if_neg (by omega), if_neg (by omega), if_neg (by omega), if_pos hm.2]
    case general =>
      rw [if_neg (by omega), if_neg (by omega), if_neg (by omega), if_neg (by omega), if_neg (by omega)]

/-- NaN collapse (R72). -/
theorem special_of_nan {c : Config} (h : c.Legal) {d : Word} (hd : infMag < magOf d) :
    special c d = (true, word (signOf d) infMag) := by
  rw [special, (classOf_eq_iff h d .nan).2 hd, ← signedInf_sign]

/-- Underflow flush (R73). -/
theorem special_of_tiny {c : Config} (h : c.Legal) {d : Word} (hpos : 0 < magOf d) (hlow : magOf d < lowMag c) :
    special c d = (true, word (signOf d) 0) := by
  rw [special, (classOf_eq_iff h d .tiny).2 ⟨hpos, hlow⟩, ← signedZero_sign]

theorem quantize_of_special {c : Config} {a r : Word} (hr : special c a = (true, r)) : quantize c a = r := by
  rw [quantize, hr]

theorem constructD_of_special {c : Config} {a r : Word} (hr : special c a = (true, r)) : constructD c a = r := by
  rw [constructD, hr]

/-- `QNT` and `CVT.D` answer what the special handler settles (42_quantize.md R101 steps 1 and 2, 41_construct.md R80
step 1). -/
theorem exec_of_special {s : State} (h : s.config.Legal) {a r : Word} (hr : special s.config a = (true, r)) :
    exec (.qnt a) s = .next { s with y := r, bf := none } ∧
      exec (.cvtD a) s = .next { s with y := r, bf := none } := by
  rw [exec_legal h, exec_legal h, responseWord, responseWord, quantize_of_special hr, constructD_of_special hr]
  exact ⟨rfl, rfl⟩

/-- A grid point in range is a `GENERAL` word: one is not on the grid. -/
theorem classOf_of_isGridPoint {c : Config} (h : c.Legal) {v : Word} (hgrid : isGridPoint c v) (hrange : inRange c v) :
    classOf c v = .general := by
  obtain ⟨-, -, hon⟩ := hgrid
  obtain ⟨hlo, hhi⟩ := hrange
  rw [mag_le_iff] at hlo hhi
  refine (classOf_general_iff c v h).2 ⟨hlo, hhi.trans_lt (Config.one_lt_maxVal h).2, fun hone => ?_⟩
  exact not_onGrid_of_isSpecial h (.inr (.inr ((mag_eq_iff _ _).2 (hone.trans mag_ONE_toNat.symm)))) hon

/-- `QNT` keeps every hub value (42_quantize.md R102): a special value passes, a grid point is its own snap. -/
theorem quantize_of_isHubValue {c : Config} (h : c.Legal) {v : Word} (hv : isHubValue c v) : quantize c v = v := by
  obtain hv | ⟨hgrid, hrange⟩ := hv
  · exact quantize_of_isSpecial hv
  · have hgeneral := classOf_of_isGridPoint h hgrid hrange
    obtain ⟨-, -, hon⟩ := hgrid
    obtain ⟨-, hmax⟩ := hrange
    rw [quantize_general hgeneral, snap_of_onGrid h hon,
      clamp_of_le ((mag_le_iff _ _).1 hmax)]

/-- Construction keeps every hub value: a grid point is not rounded (41_construct.md R80 step 2). -/
theorem constructD_of_isHubValue {c : Config} (h : c.Legal) {v : Word} (hv : isHubValue c v) :
    constructD c v = v := by
  obtain hv | ⟨hgrid, hrange⟩ := hv
  · exact constructD_of_special (special_of_isSpecial hv)
  · have hgeneral := classOf_of_isGridPoint h hgrid hrange
    obtain ⟨-, -, hon⟩ := hgrid
    obtain ⟨-, hmax⟩ := hrange
    rw [constructD_general h hgeneral, if_pos hon,
      clamp_of_le ((mag_le_iff _ _).1 hmax)]

/-- Both words of the magnitude of `lowestVal` are hub values, as general decodings of its code. -/
theorem isHubValue_of_magOf_eq_lowMag {c : Config} (h : c.Legal) {a : Word} (ha : magOf a = lowMag c) :
    isHubValue c a := by
  have hmag : mag a = mag c.lowestVal := by
    rw [mag_eq_iff, mag_toNat, mag_lowestVal_eq_lowMag h, ← ha, magOf]
  have hcode : mag (c.gdec (sign a) 0 1) = mag c.lowestVal := by
    rw [mag_eq_iff, mag_lowestVal_eq_lowMag h, mag_gdec_eq_codeMag h _ (Nat.two_pow_pos _) h.one_lt_pow_mant, lowMag]
  have hgdec : a = c.gdec (sign a) 0 1 := word_ext (Config.sign_gdec _ _ _ _).symm (hmag.trans hcode.symm)
  rw [hgdec]
  refine gdec_isHubValue h _ (Nat.two_pow_pos _) h.one_lt_pow_mant ?_
  rw [inRange, hcode]
  exact ⟨BitVec.le_refl _, lowestVal_le_maxVal h⟩

/-- `WIDEN` keeps the sign bit, a NaN's too (41_construct.md R84). -/
theorem sign_widen (w : BitVec 32) : sign (widen w) = w.extractLsb' 31 1 := by
  simp only [widen]
  split_ifs <;> simp only [sign_ofFields, sign_signedZero]

/-- The sign bit of a widened operand is bit 31 of the port word. -/
theorem signOf_widen_operand32 (a : Word) : signOf (widen (operand32 a)) = a.toNat / 2 ^ 31 % 2 := by
  rw [signOf, ← sign_toNat, sign_widen, BitVec.extractLsb'_toNat, operand32_eq_ofNat, BitVec.toNat_ofNat,
    Nat.shiftRight_eq_div_pow]
  omega

/-- `WIDEN` of a binary32 NaN is a binary64 NaN (41_construct.md R84). -/
theorem infMag_lt_widen {w : BitVec 32} (hw : 255 * 2 ^ 23 < w.toNat % 2 ^ 31) : infMag < magOf (widen w) := by
  have hexp : (w.extractLsb' 23 8).toNat = 255 := by
    rw [BitVec.extractLsb'_toNat, Nat.shiftRight_eq_div_pow]; omega
  have hfrac : (w.extractLsb' 0 23).toNat = w.toNat % 2 ^ 23 := by
    rw [BitVec.extractLsb'_toNat, Nat.shiftRight_zero]
  have hmag : magOf (widen w) = 2047 * 2 ^ 52 + w.toNat % 2 ^ 23 * 2 ^ 29 % 2 ^ 52 := by
    rw [magOf, ← mag_toNat, widen, if_pos hexp, mag_ofFields_toNat, hfrac, BitVec.toNat_ofNat, Nat.shiftLeft_eq]
    rfl
  rw [hmag, infMag]
  omega

end Sys2Proof.Machine
end

section
/-! The obligations of 40_special_cases.md: the classes, the special handler, NaN collapse and underflow. -/

namespace Sys2Proof.SpecialCases

open Sys2Proof.Machine Sys2Proof.Reference

/-- Settles O23: the landmarks are in order, so the tests meet each class on its magnitudes only. -/
theorem classesPartitionTheWords : Obligations.ClassesPartitionTheWords := by
  intro c h
  obtain ⟨hlow, hone, hinf⟩ := landmarks_ordered h
  exact ⟨hlow, hone, hinf, fun d => ⟨classOf_eq_iff h d .zero, classOf_eq_iff h d .inf, classOf_eq_iff h d .one,
    classOf_eq_iff h d .nan, classOf_eq_iff h d .tiny, classOf_eq_iff h d .general⟩⟩

/-- Settles O24: one law of the special handler for each clause; a declined word is normal because `lowestVal` is. -/
theorem specialHandlerSettlesAllButGeneralWords : Obligations.SpecialHandlerSettlesAllButGeneralWords := by
  intro c d h
  rw [mag_lowestVal_eq_lowMag h]
  refine ⟨fun hd => special_of_isSpecial ((isSpecial_iff_magOf d).2 hd), special_of_nan h, special_of_tiny h,
    fun hlow hinf hone => ⟨special_general ((classOf_eq_iff h d .general).2 ⟨hlow, hinf, hone⟩), ?_⟩⟩
  rw [← mag_lowestVal_eq_lowMag h] at hlow
  rw [magOf, ← mag_toNat] at hlow hinf
  exact normal_of_mag ((lowestVal_normal h).trans hlow) hinf

/-- Settles O25: the special handler collapses a NaN, and `WIDEN` makes a NaN of the same sign of a binary32 NaN. -/
theorem nanOperandsCollapseToSignedInfinity : Obligations.NaNOperandsCollapseToSignedInfinity := by
  intro s a h
  refine ⟨fun ha => exec_of_special h (special_of_nan h ha), fun ha => ?_⟩
  have hnan : infMag < magOf (widen (operand32 a)) := by
    refine infMag_lt_widen ?_
    rw [operand32_eq_ofNat, BitVec.toNat_ofNat]
    omega
  rw [exec_legal h, responseWord, constructD_of_special (special_of_nan h hnan), signOf_widen_operand32]
  rfl

/-- Settles O26: below `lowestVal` the special handler flushes, and `lowestVal` of either sign is a hub value, which
both operations keep. -/
theorem magnitudesBelowLowestValFlushToSignedZero : Obligations.MagnitudesBelowLowestValFlushToSignedZero := by
  intro s a h
  refine ⟨?_, fun hpos hlow => exec_of_special h (special_of_tiny h hpos hlow), fun ha => ?_⟩
  · rw [← mag_lowestVal_eq_lowMag h]
    exact lowestVal_normal h
  · have hhub := isHubValue_of_magOf_eq_lowMag h ha
    rw [exec_legal h, exec_legal h, responseWord, responseWord, quantize_of_isHubValue h hhub,
      constructD_of_isHubValue h hhub]
    exact ⟨rfl, rfl⟩

end Sys2Proof.SpecialCases
end

section
/-! SUPPORT. The answers of construction by the numbers of the reference: the special handler, the clamp and the two
pre-roundings on the magnitude (41_construct.md R80 to R83). -/

namespace Sys2Proof.Machine

open Sys2Proof.Reference

/-- A word with the sign of `a` is that sign and its own magnitude. -/
theorem eq_word_of_sign {x a : Word} (hs : sign x = sign a) : x = word (signOf a) (mag x).toNat := by
  have hx := ofSignMag_eq_word (sign x) (mag x)
  rwa [ofSignMag_sign_mag, hs, sign_toNat, ← signOf] at hx

theorem word_signOf_magOf (a : Word) : word (signOf a) (magOf a) = a := by
  rw [magOf, ← mag_toNat, ← eq_word_of_sign rfl]

theorem mag_word {sgn m : Nat} (hm : m < 2 ^ 63) : (mag (word sgn m)).toNat = m := by
  rw [mag_toNat, word, BitVec.toNat_ofNat]
  omega

/-- `HUB_BIT` as the reference writes it. -/
theorem hubBit_eq_pow {c : Config} (h : c.Legal) : c.hubBit.toNat = 2 ^ (51 - c.mantBits) := by
  rw [Config.hubBit_toNat h, Config.shift, Nat.sub_right_comm]

theorem mag_maxVal_eq_maxMag {c : Config} (h : c.Legal) : (mag c.maxVal).toNat = maxMag c := by
  obtain ⟨hexp, hfrac⟩ := maxVal_fields_lt h
  exact mag_gdec_eq_codeMag h 0 hexp hfrac

/-- One is below `maxVal`, and `maxVal` below infinity. -/
theorem oneMag_lt_maxMag {c : Config} (h : c.Legal) : oneMag < maxMag c ∧ maxMag c < infMag := by
  rw [← mag_maxVal_eq_maxMag h]
  exact Config.one_lt_maxVal h

theorem maxMag_mod_cell {c : Config} (h : c.Legal) : maxMag c % 2 ^ c.shift = c.hubBit.toNat := by
  rw [← mag_maxVal_eq_maxMag h, Config.mag_maxVal h, gdec_mod_cell h]

theorem mag_clamp {c : Config} (h : c.Legal) (x : Word) : (mag (clamp c x)).toNat = clampMag c (mag x).toNat := by
  have hcases := clamp_cases c x
  rw [mag_maxVal_eq_maxMag h] at hcases
  obtain ⟨hle, hx⟩ | ⟨hgt, hx⟩ := hcases
  · rw [hx, clampMag, if_neg (by omega)]
  · rw [hx, clampMag, if_pos hgt, mag_signedInf, mag_PINF_toNat, infMag]

theorem specialMag_of_general {c : Config} {m : Nat} (hm : classMagnitudes c .general m) (h : c.Legal) (k : Nat) :
    specialMag c m k = k := by
  obtain ⟨hpos, -, -⟩ := landmarks_ordered h
  obtain ⟨hlow, hinf, hone⟩ := hm
  rw [specialMag, if_neg (by omega), if_neg (by omega), if_neg (by omega)]

/-- The special handler answers the reference's three special cases, whatever stands for the fourth (R71 to R73). -/
theorem special_of_not_general {c : Config} (h : c.Legal) {d : Word} (hd : classOf c d ≠ .general) (k : Nat) :
    special c d = (true, word (signOf d) (specialMag c (magOf d) k)) := by
  obtain ⟨hlow, hone, hinf⟩ := landmarks_ordered h
  have hclass := (classOf_eq_iff h d _).1 rfl
  cases hc : classOf c d <;> simp only [hc, classMagnitudes] at hclass
  case zero | inf | one =>
    rw [specialMag, if_pos (by omega), word_signOf_magOf, special, hc]
  case nan =>
    rw [specialMag, if_neg (by omega), if_pos hclass, special_of_nan h hclass]
  case tiny =>
    obtain ⟨hpos, htiny⟩ := hclass
    rw [specialMag, if_neg (by omega), if_neg (by omega), if_pos htiny, special_of_tiny h hpos htiny]
  case general => exact absurd hc hd

/-- Rounding to nearest even, on the quotient or on the multiple. -/
theorem nearestEven_eq {k : Nat} (hk : 1 ≤ k) (m : Nat) : nearestEven m k = roundEvenShift m k * 2 ^ k := by
  have hhalf : 2 ^ k = 2 * 2 ^ (k - 1) := by rw [← Nat.pow_succ', Nat.succ_eq_add_one, Nat.sub_add_cancel hk]
  have hcond : (2 ^ k < 2 * (m % 2 ^ k) ∨ 2 * (m % 2 ^ k) = 2 ^ k ∧ m / 2 ^ k % 2 = 1) ↔
      (m % 2 ^ k > 2 ^ (k - 1) ∨ m % 2 ^ k = 2 ^ (k - 1) ∧ m / 2 ^ k % 2 = 1) := by omega
  simp only [nearestEven, roundEvenShift, Nat.shiftRight_eq_div_pow, hcond]
  split_ifs <;> rfl

/-- The exponent field of a word is its magnitude's binade. -/
theorem magOf_div_binade (a : Word) : magOf a / 2 ^ 52 = (nexp a).toNat := by
  have := magOf_eq_fields a
  have := (nfrac a).isLt
  omega

/-- The fraction bits that `PRE_ROUND_32` drops in the binade of an exponent field (R81). -/
def droppedBits (e : Nat) : Nat := if 897 ≤ e then 29 else 926 - e

theorem le_droppedBits (e : Nat) : 29 ≤ droppedBits e := by
  rw [droppedBits]
  split_ifs <;> omega

theorem droppedBits_le {e : Nat} (he : 895 ≤ e) : droppedBits e ≤ 31 := by
  rw [droppedBits]
  split_ifs <;> omega

theorem preRoundMag_binary32 {c : Config} (hp : c.preRound = .binary32) (m : Nat) :
    preRoundMag c m =
      if 1151 * 2 ^ 52 ≤ nearestEven m (droppedBits (m / 2 ^ 52)) then infMag
      else nearestEven m (droppedBits (m / 2 ^ 52)) := by
  rw [preRoundMag, hp]
  rfl

theorem preRoundMag_mantBits {c : Config} (hp : c.preRound = .mantBits) (m : Nat) :
    preRoundMag c m = nearestEven m c.shift := by
  rw [preRoundMag, hp]
  rfl

/-- The pre-rounding of a `GENERAL` word rounds the magnitude as the reference does (R81, R82). -/
theorem mag_preRound {c : Config} (h : c.Legal) {a : Word} (ha : classOf c a = .general) :
    (mag (preRound c a)).toNat = preRoundMag c (magOf a) := by
  obtain ⟨-, hinf, -⟩ := (classOf_general_iff c a h).1 ha
  have hmag : magOf a = (mag a).toNat := (mag_toNat a).symm
  cases hp : c.preRound
  case binary32 =>
    obtain ⟨-, hbias, -⟩ := binary32_constants h hp
    have hnexp : 895 ≤ (nexp a).toNat := hbias ▸ general_nexp h ha
    have hdropped : 1 ≤ droppedBits (nexp a).toNat := le_trans (by decide) (le_droppedBits _)
    have hpre : preRound c a = preRound32 a := by rw [preRound, hp]
    rw [hpre, (preRound32_mag hnexp hinf rfl).2, ← droppedBits, preRoundMag_binary32 hp, magOf_div_binade,
      nearestEven_eq hdropped, hmag, infMag]
  case mantBits =>
    have hpre : preRound c a = preRoundM c a := by rw [preRound, hp]
    rw [hpre, (preRoundM_mag h hinf).2, preRoundMag_mantBits hp, nearestEven_eq h.shift_bounds.1, hmag]

/-- The magnitude of `CVT.D` of a `GENERAL` word, in terms of the grid constants (R80 steps 2 to 4, R83). -/
theorem constructMag_of_general {c : Config} (h : c.Legal) {m : Nat} (hm : classMagnitudes c .general m) :
    constructMag c m =
      if m % 2 ^ c.shift = c.hubBit.toNat then clampMag c m
      else if preRoundMag c m = infMag then infMag else clampMag c (preRoundMag c m + c.hubBit.toNat) := by
  rw [constructMag, specialMag_of_general hm h, hubBit_eq_pow h]
  rfl

theorem sign_constructD {c : Config} (h : c.Legal) {a : Word} (ha : classOf c a = .general) :
    sign (constructD c a) = sign a := by
  obtain ⟨hsign, -, -⟩ := preRound_mod_cell h ha
  rw [constructD_general h ha]
  split_ifs
  · exact sign_clamp c a
  · exact hsign
  · rw [sign_clamp, sign_snap h, hsign]

/-- Forcing the hub bit in a pre-rounded word adds it to the magnitude (R80 step 3). -/
theorem mag_snap_preRound {c : Config} (h : c.Legal) {a : Word} (ha : classOf c a = .general) :
    (mag (snap c (preRound c a))).toNat = preRoundMag c (magOf a) + c.hubBit.toNat := by
  obtain ⟨-, hclear, -⟩ := preRound_mod_cell h ha
  rw [mag_snap h, Nat.div_mul_cancel (Nat.dvd_of_mod_eq_zero hclear), mag_preRound h ha]

theorem mag_constructD {c : Config} (h : c.Legal) {a : Word} (ha : classOf c a = .general) :
    (mag (constructD c a)).toNat = constructMag c (magOf a) := by
  have hgrid := onGrid_iff h a
  have hinf : mag (preRound c a) = mag PINF ↔ preRoundMag c (magOf a) = infMag := by
    rw [mag_eq_iff, mag_preRound h ha, mag_PINF_toNat, infMag]
  rw [mag_toNat, ← magOf] at hgrid
  rw [constructD_general h ha, constructMag_of_general h ((classOf_eq_iff h a .general).1 ha)]
  simp only [hgrid, hinf]
  split_ifs with hon hp
  · rw [mag_clamp h, mag_toNat, ← magOf]
  · rw [mag_preRound h ha, hp]
  · rw [mag_clamp h, mag_snap_preRound h ha]

/-- Construction by numbers alone, for every word (R80, R83). -/
theorem constructD_eq_word {c : Config} (h : c.Legal) (a : Word) :
    constructD c a = word (signOf a) (constructMag c (magOf a)) := by
  by_cases ha : classOf c a = .general
  · rw [← mag_constructD h ha, ← eq_word_of_sign (sign_constructD h ha)]
  · exact constructD_of_special (special_of_not_general h ha _)

end Sys2Proof.Machine
end

section
/-! SUPPORT. What the reference's pre-rounding does to a cell: the lower half is rounded down, the upper half up, except in
the coarse binades of binary32 (41_construct.md R80 corner cases, R81, R82). -/

namespace Sys2Proof.Machine

open Sys2Proof.Reference

/-- A magnitude where the pre-rounding discards exactly the bits of a cell: every one under `PRE_ROUND_M`, and from the
smallest normal binary32 up under `PRE_ROUND_32`. -/
def roundsToCells (c : Config) (m : Nat) : Prop := c.preRound = .mantBits ∨ 897 ≤ m / 2 ^ 52

/-- In a binary32 build `maxVal` lies below `2^128`, where the pre-rounding overflows (R81). -/
theorem maxMag_lt_of_binary32 {c : Config} (h : c.Legal) (hp : c.preRound = .binary32) : maxMag c < 1151 * 2 ^ 52 := by
  obtain ⟨-, hbias, -⟩ := binary32_constants h hp
  obtain ⟨hexp, hfrac⟩ := maxVal_fields_lt h
  have hlt := (Config.gdec_fraction h hfrac).2
  have := h.biasDiff_eq; have := h.pow_expBits
  rw [← mag_maxVal_eq_maxMag h, Config.mag_maxVal h]
  omega

/-- There the pre-rounding rounds to the nearest cell edge, or overflows above `maxVal`. -/
theorem preRoundMag_of_roundsToCells {c : Config} (h : c.Legal) {m : Nat} (hm : roundsToCells c m) :
    preRoundMag c m = nearestEven m c.shift ∨ (preRoundMag c m = infMag ∧ maxMag c < nearestEven m c.shift) := by
  cases hp : c.preRound
  case mantBits => exact .inl (preRoundMag_mantBits hp m)
  case binary32 =>
    obtain ⟨hshift, -, -⟩ := binary32_constants h hp
    have hfine : 897 ≤ m / 2 ^ 52 := hm.resolve_left (by simp [hp])
    have hmax := maxMag_lt_of_binary32 h hp
    rw [preRoundMag_binary32 hp, droppedBits, if_pos hfine, hshift]
    split_ifs with hover
    · exact .inr ⟨rfl, by omega⟩
    · exact .inl rfl

theorem nearestEven_of_lower {m k : Nat} (hm : 2 * (m % 2 ^ k) < 2 ^ k) : nearestEven m k = m / 2 ^ k * 2 ^ k := by
  rw [nearestEven, if_neg (by omega)]

theorem nearestEven_of_upper {m k : Nat} (hm : 2 ^ k < 2 * (m % 2 ^ k)) :
    nearestEven m k = m / 2 ^ k * 2 ^ k + 2 ^ k := by
  rw [nearestEven, if_pos (.inl hm), Nat.succ_mul]

theorem nearestEven_of_dvd {m k : Nat} (hm : 2 ^ k ∣ m) : nearestEven m k = m := by
  have hpos := Nat.two_pow_pos k
  rw [nearestEven_of_lower (by rw [Nat.mod_eq_zero_of_dvd hm]; exact hpos), Nat.div_mul_cancel hm]

theorem le_nearestEven (m k : Nat) : m / 2 ^ k * 2 ^ k ≤ nearestEven m k := by
  unfold nearestEven
  split_ifs
  · exact Nat.mul_le_mul_right _ (Nat.le_succ _)
  · exact Nat.le_refl _

/-- Every magnitude above `maxVal` rounds to a cell whose grid point is above `maxVal`: the upper half of the cell of
`maxVal` is rounded up. -/
theorem maxMag_lt_nearestEven_add {c : Config} (h : c.Legal) {m : Nat} (hm : maxMag c < m) :
    maxMag c < nearestEven m c.shift + c.hubBit.toNat := by
  have hwidth := h.cell_width
  have hhub := Config.hubBit_pos h
  have hmax := Nat.div_add_mod' (maxMag c) (2 ^ c.shift)
  have hcell := Nat.div_add_mod' m (2 ^ c.shift)
  rw [maxMag_mod_cell h] at hmax
  obtain heq | hlt := (Nat.div_le_div_right (c := 2 ^ c.shift) hm.le).eq_or_lt
  · rw [heq] at hmax
    rw [nearestEven_of_upper (by omega)]
    omega
  · have hnext := Nat.mul_le_mul_right (2 ^ c.shift) (Nat.succ_le_of_lt hlt)
    have hdown := le_nearestEven m c.shift
    rw [Nat.succ_mul] at hnext
    omega

/-- Construction saturates strictly above `maxVal`, on the grid or not (41_construct.md R80 corner cases). -/
theorem constructMag_of_maxMag_lt {c : Config} (h : c.Legal) {m : Nat} (hm : maxMag c < m) :
    constructMag c m = infMag := by
  obtain ⟨hlow, hone, hinf⟩ := landmarks_ordered h
  obtain ⟨hmaxOne, hmaxInf⟩ := oneMag_lt_maxMag h
  obtain hlt | hge := lt_or_ge m infMag
  · have hcells : roundsToCells c m := .inr (by rw [oneMag] at hmaxOne; omega)
    have hover := maxMag_lt_nearestEven_add h hm
    rw [constructMag_of_general h ⟨by omega, hlt, by omega⟩, clampMag, if_pos hm]
    split_ifs with hon hp
    · rfl
    · rfl
    · obtain hround | ⟨hround, -⟩ := preRoundMag_of_roundsToCells h hcells
      · rw [clampMag, hround, if_pos hover]
      · exact absurd hround hp
  · rw [constructMag, specialMag]
    split_ifs <;> omega

/-- The top edge of the cell of `maxVal` (42_quantize.md R103). -/
theorem maxCellEdge_eq {c : Config} (h : c.Legal) :
    maxCellEdge c = maxMag c / 2 ^ c.shift * 2 ^ c.shift + 2 ^ c.shift := by
  have hpos := Nat.two_pow_pos c.shift
  have hor : (maxMag c ||| ones c.shift) = maxMag c / 2 ^ c.shift * 2 ^ c.shift + ones c.shift := by
    have hlt : ones c.shift < 2 ^ c.shift := by rw [ones_eq]; omega
    rw [← Nat.shiftLeft_eq, Nat.shiftLeft_add_eq_or_of_lt hlt, ← Nat.shiftRight_eq_div_pow, ones_eq]
    apply Nat.eq_of_testBit_eq
    intro i
    rw [Nat.testBit_or, Nat.testBit_or, Nat.testBit_two_pow_sub_one, Nat.testBit_shiftLeft, Nat.testBit_shiftRight]
    by_cases hi : c.shift ≤ i
    · simp [hi]
    · simp [hi, Nat.lt_of_not_le hi]
  rw [maxCellEdge, mag_maxVal_eq_maxMag h, hor, ones_eq]
  omega

/-- Below that edge the cell's grid point is not above `maxVal`. -/
theorem cell_add_hubBit_le_maxMag {c : Config} (h : c.Legal) {m : Nat} (hm : m < maxCellEdge c) :
    m / 2 ^ c.shift * 2 ^ c.shift + c.hubBit.toNat ≤ maxMag c := by
  have hmax := Nat.div_add_mod' (maxMag c) (2 ^ c.shift)
  rw [maxMag_mod_cell h] at hmax
  rw [maxCellEdge_eq h, ← Nat.succ_mul, ← Nat.div_lt_iff_lt_mul (Nat.two_pow_pos _)] at hm
  have := Nat.mul_le_mul_right (2 ^ c.shift) (Nat.le_of_lt_succ hm)
  omega

/-- Below that edge `QNT` answers the grid point of the operand's cell (42_quantize.md R103). -/
theorem quantize_below_edge {c : Config} (h : c.Legal) {a : Word} (ha : classOf c a = .general)
    (hedge : magOf a < maxCellEdge c) :
    sign (quantize c a) = sign a ∧
      (mag (quantize c a)).toNat = magOf a / 2 ^ c.shift * 2 ^ c.shift + c.hubBit.toNat := by
  have hmag := mag_snap h a
  rw [mag_toNat a, ← magOf] at hmag
  have hle := cell_add_hubBit_le_maxMag h hedge
  rw [← hmag, ← mag_maxVal_eq_maxMag h] at hle
  rw [quantize_general ha, clamp_of_le hle]
  exact ⟨sign_snap h a, hmag⟩

/-- Below that edge construction answers the cell's own grid point exactly in the lower half of the cell and on the grid
(41_construct.md R80 corner cases): from the upper half it goes to the next grid point, or to infinity. -/
theorem constructMag_eq_cell_iff {c : Config} (h : c.Legal) {m : Nat} (hm : classMagnitudes c .general m)
    (hcells : roundsToCells c m) (hedge : m < maxCellEdge c) :
    constructMag c m = m / 2 ^ c.shift * 2 ^ c.shift + c.hubBit.toNat ↔ m % 2 ^ c.shift ≤ c.hubBit.toNat := by
  have hwidth := h.cell_width
  have hpos := Config.hubBit_pos h
  obtain ⟨-, hmaxInf⟩ := oneMag_lt_maxMag h
  have hcell := Nat.div_add_mod' m (2 ^ c.shift)
  have hle := cell_add_hubBit_le_maxMag h hedge
  have hround := preRoundMag_of_roundsToCells h hcells
  rw [constructMag_of_general h hm]
  obtain hlow | hon | hup := lt_trichotomy (m % 2 ^ c.shift) c.hubBit.toNat
  · rw [nearestEven_of_lower (by omega)] at hround
    obtain hround | ⟨-, hover⟩ := hround
    · rw [if_neg hlow.ne, hround, if_neg (by omega), clampMag, if_neg (by omega)]
      exact iff_of_true rfl hlow.le
    · omega
  · rw [if_pos hon, clampMag, if_neg (by omega)]
    exact iff_of_true (by omega) hon.le
  · rw [nearestEven_of_upper (by omega)] at hround
    refine iff_of_false ?_ (by omega)
    rw [if_neg hup.ne', clampMag]
    split_ifs <;> omega

end Sys2Proof.Machine
end

section
/-! SUPPORT. Where construction stays in range, and where it does not (41_construct.md R88, 70_reset_and_hazards.md
R153). -/

namespace Sys2Proof.Machine

open Sys2Proof.Reference

theorem magOf_mod_binade (a : Word) : magOf a % 2 ^ 52 = (nfrac a).toNat := by
  have := magOf_eq_fields a
  have := (nfrac a).isLt
  omega

/-- A word on the grid and not below `lowestVal` is a hub value after the clamp: up to `maxVal` it is normal and in range
(10_state.md R21 (b)). -/
theorem clamp_isHubValue {c : Config} (h : c.Legal) {v : Word} (hon : onGrid c v)
    (hlow : (mag c.lowestVal).toNat ≤ (mag v).toNat) : isHubValue c (clamp c v) := by
  obtain ⟨hmax, hkeep⟩ | ⟨-, hsat⟩ := clamp_cases c v
  · obtain ⟨-, hmaxInf⟩ := Config.one_lt_maxVal h
    obtain ⟨hlo, hhi⟩ := normal_of_mag ((lowestVal_normal h).trans hlow) (hmax.trans_lt hmaxInf)
    rw [hkeep]
    exact .inr ⟨⟨hlo, hhi, hon⟩, (mag_le_iff _ _).2 hlow, (mag_le_iff _ _).2 hmax⟩
  · rw [hsat]
    exact .inl (.inr (.inl (mag_signedInf _)))

/-- The operands whose coarse binary32 rounding goes below `lowestVal` (70_reset_and_hazards.md R153). -/
def roundsBelowLowestVal (c : Config) (a : Word) : Prop :=
  c.preRound = .binary32 ∧ (nexp a).toNat = 895 ∧ 0x30000000 < (nfrac a).toNat ∧ (nfrac a).toNat ≤ 0x40000000

/-- `lowestVal` is the second grid point of its binade. -/
theorem lowMag_eq {c : Config} (h : c.Legal) : lowMag c = c.biasDiff * 2 ^ 52 + (2 ^ c.shift + c.hubBit.toNat) := by
  rw [← mag_lowestVal_eq_lowMag h, Config.mag_lowestVal h]

/-- Where whole cells are rounded, rounding stays in range: the lower edge of the cell of `lowestVal` is a multiple of the
cell width. -/
theorem lowMag_le_nearestEven_add {c : Config} (h : c.Legal) {m : Nat} (hm : lowMag c ≤ m) :
    lowMag c ≤ nearestEven m c.shift + c.hubBit.toNat := by
  have hedge : c.biasDiff * 2 ^ 52 + 2 ^ c.shift = (c.biasDiff * 2 ^ c.mantBits + 1) * 2 ^ c.shift := by
    rw [Nat.succ_mul, Nat.mul_assoc, h.pow_mant_shift]
  have hlow := lowMag_eq h
  have hdown : c.biasDiff * 2 ^ 52 + 2 ^ c.shift ≤ m / 2 ^ c.shift * 2 ^ c.shift := by
    rw [hedge]
    refine Nat.mul_le_mul_right _ ((Nat.le_div_iff_mul_le (Nat.two_pow_pos _)).2 ?_)
    omega
  have := le_nearestEven m c.shift
  omega

/-- The two coarse binades of `PRE_ROUND_32`: only the lower half of the lowest cell of the lower one is rounded below
`lowestVal`. -/
theorem coarse_round {m : Nat} (hlow : 895 * 2 ^ 52 + 0x30000000 < m) (hcoarse : m / 2 ^ 52 < 897) :
    895 * 2 ^ 52 + 0x20000000 ≤ nearestEven m (926 - m / 2 ^ 52) ∨
      (m / 2 ^ 52 = 895 ∧ 0x30000000 < m % 2 ^ 52 ∧ m % 2 ^ 52 ≤ 0x40000000 ∧
        nearestEven m (926 - m / 2 ^ 52) = 895 * 2 ^ 52) := by
  have hbinade : m / 2 ^ 52 = 895 ∨ m / 2 ^ 52 = 896 := by omega
  obtain hbinade | hbinade := hbinade <;> rw [hbinade, nearestEven]
  · split_ifs <;> omega
  · left
    split_ifs <;> omega

/-- An operand off the grid is constructed in range, but for the coarse binary32 rounding of R153. -/
theorem lowMag_le_preRoundMag_add {c : Config} (h : c.Legal) {a : Word} (ha : classOf c a = .general)
    (hoff : ¬ onGrid c a) :
    lowMag c ≤ preRoundMag c (magOf a) + c.hubBit.toNat ∨
      (roundsBelowLowestVal c a ∧ preRoundMag c (magOf a) = 895 * 2 ^ 52) := by
  obtain ⟨hlow, -, -⟩ := (classOf_eq_iff h a .general).1 ha
  obtain ⟨-, hlowOne, honeInf⟩ := landmarks_ordered h
  by_cases hcells : roundsToCells c (magOf a)
  · left
    obtain hround | ⟨hround, -⟩ := preRoundMag_of_roundsToCells h hcells <;> rw [hround]
    · exact lowMag_le_nearestEven_add h hlow
    · omega
  · have hp : c.preRound = .binary32 := by
      cases hp : c.preRound with
      | binary32 => rfl
      | mantBits => exact absurd (.inl hp) hcells
    obtain ⟨hshift, hbias, hhub⟩ := binary32_constants h hp
    have hcoarse : ¬ 897 ≤ magOf a / 2 ^ 52 := fun hge => hcells (.inr hge)
    have hlowest := lowMag_eq h
    rw [onGrid_iff h, mag_toNat, ← magOf, hshift, hhub] at hoff
    rw [hshift, hbias, hhub] at hlowest
    have hround : preRoundMag c (magOf a) = infMag ∨
        preRoundMag c (magOf a) = nearestEven (magOf a) (926 - magOf a / 2 ^ 52) := by
      rw [preRoundMag_binary32 hp, droppedBits, if_neg hcoarse]
      split_ifs
      · exact .inl rfl
      · exact .inr rfl
    obtain hround | hround := hround <;> rw [hround]
    · exact .inl (by omega)
    · obtain hge | ⟨hbinade, hfracLow, hfracHigh, hdown⟩ := coarse_round (by omega) (not_le.1 hcoarse)
      · exact .inl (by omega)
      · rw [magOf_div_binade] at hbinade
        rw [magOf_mod_binade] at hfracLow hfracHigh
        exact .inr ⟨⟨hp, hbinade, hfracLow, hfracHigh⟩, hdown⟩

/-- What construction answers (R88): a hub value, or the grid point below `lowestVal` of R153. -/
theorem constructD_isHubValue_or {c : Config} (h : c.Legal) (a : Word) :
    isHubValue c (constructD c a) ∨
      (roundsBelowLowestVal c a ∧ constructD c a = word (signOf a) 0x37F0000010000000) := by
  by_cases ha : classOf c a = .general
  case neg =>
    obtain ⟨-, hspecial, -⟩ := quantize_handled ha
    rw [constructD_handled ha]
    exact .inl (.inl hspecial)
  obtain ⟨hlow, -, -⟩ := (classOf_general_iff c a h).1 ha
  have hmag := mag_snap_preRound h ha
  rw [constructD_general h ha]
  split_ifs with hon hinf
  · exact .inl (clamp_isHubValue h hon hlow)
  · exact .inl (.inl (.inr (.inl hinf)))
  · obtain hge | ⟨hbelow, hround⟩ := lowMag_le_preRoundMag_add h ha hon
    · rw [← hmag, ← mag_lowestVal_eq_lowMag h] at hge
      exact .inl (clamp_isHubValue h ((onGrid_iff h _).2 (snap_mod_cell h _)) hge)
    · obtain ⟨hp, -⟩ := id hbelow
      obtain ⟨-, -, hhub⟩ := binary32_constants h hp
      obtain ⟨hsign, -, -⟩ := preRound_mod_cell h ha
      obtain ⟨honeMax, -⟩ := Config.one_lt_maxVal h
      rw [hround, hhub] at hmag
      rw [clamp_of_le (by omega), eq_word_of_sign ((sign_snap h _).trans hsign), hmag]
      exact .inr ⟨hbelow, rfl⟩

/-- A constructed value is no NaN. -/
theorem not_isNaN_of_isConstructed {c : Config} {v : Word} (hv : isConstructed c v) : ¬ isNaN v := by
  intro hnan
  obtain hspecial | ⟨⟨-, hle, -⟩, -⟩ := hv
  · rw [isNaN_iff_mag, GT.gt, mag_lt_iff, mag_PINF_toNat, mag_toNat, ← magOf] at hnan
    rw [isSpecial_iff_magOf, infMag, oneMag] at hspecial
    omega
  · obtain ⟨hexp, -⟩ := hnan
    omega

theorem isConstructed_of_isHubValue {c : Config} {v : Word} (hv : isHubValue c v) : isConstructed c v :=
  hv.imp id fun ⟨hgrid, _, hmax⟩ => ⟨hgrid, hmax⟩

/-- The word of R153 is a grid point, and below `maxVal`. -/
theorem isConstructed_below_lowestVal {c : Config} (h : c.Legal) (hp : c.preRound = .binary32) {a : Word} :
    isConstructed c (word (signOf a) 0x37F0000010000000) := by
  obtain ⟨hshift, -, hhub⟩ := binary32_constants h hp
  have hmag : (mag (word (signOf a) 0x37F0000010000000)).toNat = 0x37F0000010000000 := mag_word (by decide)
  obtain ⟨hlo, hhi⟩ := normal_of_mag (by rw [hmag]; decide) (by rw [hmag]; decide)
  refine .inr ⟨⟨hlo, hhi, ?_⟩, ?_⟩
  · rw [onGrid_iff h, hmag, hshift, hhub]
    rfl
  · rw [mag_le_iff, hmag]
    obtain ⟨honeMax, -⟩ := Config.one_lt_maxVal h
    omega

theorem constructD_isConstructed {c : Config} (h : c.Legal) (a : Word) : isConstructed c (constructD c a) := by
  obtain hhub | ⟨⟨hp, -⟩, hword⟩ := constructD_isHubValue_or h a
  · exact isConstructed_of_isHubValue hhub
  · rw [hword]
    exact isConstructed_below_lowestVal h hp

end Sys2Proof.Machine
end

section
/-! SUPPORT. The two exact conversions in front of construction: how fine the words are that they give, and what integer
`CVT.W` reads (41_construct.md R84, R85). -/

namespace Sys2Proof.Machine

open Sys2Proof.Reference

theorem nexp_signedZero (s : BitVec 1) : (nexp (signedZero s)).toNat = 0 := by
  have hzero : (0 : BitVec 63).toNat = 0 := rfl
  rw [nexp_toNat, signedZero, ofSignMag_toNat, hzero]
  omega

/-- A widened word that is neither too small for the format nor an infinity or a NaN lies below `2^128` and has none of the
bits that `PRE_ROUND_32` drops (R84 corner cases). -/
theorem widen_droppedBits {w : BitVec 32} (hlow : 895 ≤ (nexp (widen w)).toNat)
    (hfin : (nexp (widen w)).toNat ≤ 2046) :
    (nexp (widen w)).toNat ≤ 1150 ∧ 2 ^ droppedBits (nexp (widen w)).toNat ∣ (nfrac (widen w)).toNat := by
  have hf : (w.extractLsb' 0 23).toNat < 2 ^ 23 := (w.extractLsb' 0 23).isLt
  have he : (w.extractLsb' 23 8).toNat < 2 ^ 8 := (w.extractLsb' 23 8).isLt
  revert hlow hfin
  simp only [widen]
  generalize (w.extractLsb' 0 23).toNat = f at *
  generalize (w.extractLsb' 23 8).toNat = e at *
  generalize w.extractLsb' 31 1 = s
  have hnormal : f <<< 29 < 2 ^ 52 := by rw [Nat.shiftLeft_eq]; omega
  split_ifs with h255 h0 hsub
  · simp
  · rw [nexp_signedZero]
    omega
  · have hz : f ≠ 0 := fun hz => h0 ⟨hsub, hz⟩
    obtain ⟨-, -, -, hfrac, -⟩ := log2_frac hz rfl (by omega)
    have hk : highestBit f < 23 := (Nat.log2_lt hz).2 hf
    rw [nexp_ofFields, nfrac_ofFields, BitVec.toNat_ofInt, BitVec.toNat_ofNat, Nat.mod_eq_of_lt hfrac, Nat.shiftLeft_eq]
    intro hlow _
    refine ⟨by omega, Dvd.dvd.mul_left (Nat.pow_dvd_pow 2 ?_) _⟩
    rw [droppedBits]
    split_ifs <;> omega
  · rw [nexp_ofFields, nfrac_ofFields, BitVec.toNat_ofInt, BitVec.toNat_ofNat, Nat.mod_eq_of_lt hnormal,
      Nat.shiftLeft_eq]
    intro hlow _
    refine ⟨by omega, ?_⟩
    rw [droppedBits, if_pos (by omega)]
    exact Nat.dvd_mul_left _ _

/-- A `GENERAL` widened word is a multiple of what the pre-rounding rounds to, and below its overflow. -/
theorem widen_general {c : Config} (h : c.Legal) (hp : c.preRound = .binary32) {w : BitVec 32}
    (hg : classOf c (widen w) = .general) :
    magOf (widen w) < 1151 * 2 ^ 52 ∧ 2 ^ droppedBits (magOf (widen w) / 2 ^ 52) ∣ magOf (widen w) := by
  obtain ⟨-, hbias, -⟩ := binary32_constants h hp
  obtain ⟨hlow, hinf, -⟩ := (classOf_general_iff c _ h).1 hg
  obtain ⟨-, hfin⟩ := normal_of_mag ((lowestVal_normal h).trans hlow) hinf
  have hnexp : 895 ≤ (nexp (widen w)).toNat := hbias ▸ general_nexp h hg
  obtain ⟨hexp, hdvd⟩ := widen_droppedBits hnexp hfin
  have hmag := magOf_eq_fields (widen w)
  have hfrac := (nfrac (widen w)).isLt
  refine ⟨by omega, ?_⟩
  rw [magOf_div_binade, hmag]
  exact Nat.dvd_add (Dvd.dvd.mul_left (Nat.pow_dvd_pow 2 ((droppedBits_le hnexp).trans (by decide))) _) hdvd

/-- Pre-rounding keeps a widened word (R84 corner cases). -/
theorem preRound_widen {c : Config} (h : c.Legal) (hp : c.preRound = .binary32) {w : BitVec 32}
    (hg : classOf c (widen w) = .general) : preRound c (widen w) = widen w := by
  obtain ⟨hlt, hdvd⟩ := widen_general h hp hg
  refine word_ext (preRound_mod_cell h hg).1 ((mag_eq_iff _ _).2 ?_)
  rw [mag_preRound h hg, mag_toNat, ← magOf, preRoundMag_binary32 hp, nearestEven_of_dvd hdvd, if_neg (by omega)]

theorem not_onGrid_widen {c : Config} (h : c.Legal) (hp : c.preRound = .binary32) {w : BitVec 32}
    (hg : classOf c (widen w) = .general) : ¬ onGrid c (widen w) := by
  obtain ⟨hshift, -, hhub⟩ := binary32_constants h hp
  obtain ⟨-, hdvd⟩ := widen_general h hp hg
  have hcell : 2 ^ 29 ∣ 2 ^ droppedBits (magOf (widen w) / 2 ^ 52) := Nat.pow_dvd_pow 2 (le_droppedBits _)
  rw [onGrid_iff h, hshift, hhub, mag_toNat, ← magOf, Nat.mod_eq_zero_of_dvd (hcell.trans hdvd)]
  decide

/-- A widened word is not one of R153: in its binade binary32 has no fraction bit below `2^31`. -/
theorem not_roundsBelowLowestVal_widen (c : Config) (w : BitVec 32) : ¬ roundsBelowLowestVal c (widen w) := by
  rintro ⟨-, hexp, hlow, hhigh⟩
  obtain ⟨-, hdvd⟩ := widen_droppedBits (w := w) (by omega) (by omega)
  rw [hexp] at hdvd
  have hle : 2 ^ 31 ≤ (nfrac (widen w)).toNat := Nat.le_of_dvd (by omega) hdvd
  omega

/-- A converted integer is zero or at least one in magnitude (R85). -/
theorem nexp_i2d {i : Int} (hi : i.natAbs < 2 ^ 53) : (nexp (i2d i)).toNat = 0 ∨ 1023 ≤ (nexp (i2d i)).toNat := by
  rw [i2d]
  split
  · left; decide
  · right
    rename_i hz
    obtain ⟨-, -, hk, -, -⟩ := log2_frac (Int.natAbs_ne_zero.2 hz) rfl hi
    rw [nexp_ofFields, BitVec.toNat_ofNat]
    omega

theorem not_roundsBelowLowestVal_i2d (c : Config) {i : Int} (hi : i.natAbs < 2 ^ 53) :
    ¬ roundsBelowLowestVal c (i2d i) := by
  rintro ⟨-, hexp, -⟩
  have := nexp_i2d hi
  omega

/-- The integer of `CVT.W` in two's complement (30_encoding.md R57, 41_construct.md R85). -/
theorem operandInt_eq_twosComplement {c : Config} (h : c.Legal) (a : Word) :
    operandInt c a = twosComplement c.intWidth a := by
  obtain ⟨-, -, -, -, -, hwidth, -⟩ := h
  have hpow : 2 ^ c.intWidth = 2 * 2 ^ (c.intWidth - 1) := by
    rw [← Nat.pow_succ', Nat.succ_eq_add_one, Nat.sub_add_cancel (by omega)]
  rw [operandInt, BitVec.toInt_eq_toNat_cond, BitVec.toNat_setWidth, twosComplement]
  refine if_congr ?_ rfl rfl
  omega

/-- It is exact in binary64, `INT_WIDTH` being at most 53. -/
theorem natAbs_operandInt_lt {c : Config} (h : c.Legal) (a : Word) : (operandInt c a).natAbs < 2 ^ 53 := by
  obtain ⟨-, -, -, -, -, -, hwidth⟩ := h
  have hpow : (2 : Int) ^ c.intWidth ≤ 2 ^ 53 := pow_le_pow_right₀ (by decide) hwidth
  have hlo := BitVec.le_two_mul_toInt (x := a.setWidth c.intWidth)
  have hhi := BitVec.two_mul_toInt_lt (x := a.setWidth c.intWidth)
  rw [operandInt]
  omega

end Sys2Proof.Machine
end

section
/-! SUPPORT. `DEC` by numbers alone, on the fields of the low `N` bits (41_construct.md R86, R87). -/

namespace Sys2Proof.Machine

open Sys2Proof.Reference

/-- Bits below a cut are those of the whole number. -/
theorem mod_pow_div_mod {n lo len cut : Nat} (hcut : lo + len ≤ cut) :
    n % 2 ^ cut / 2 ^ lo % 2 ^ len = n / 2 ^ lo % 2 ^ len := by
  obtain ⟨r, rfl⟩ := Nat.exists_eq_add_of_le hcut
  rw [Nat.add_assoc, Nat.pow_add, Nat.mod_mul_right_div_self,
    Nat.mod_mod_of_dvd _ (Nat.pow_dvd_pow 2 (Nat.le_add_right _ _))]

theorem fields_operandCode (c : Config) (a : Word) :
    (codeSign c (operandCode c a)).toNat = codeS c a ∧ codeExp c (operandCode c a) = codeE c a ∧
      codeFrac c (operandCode c a) = codeF c a := by
  rw [codeSign_toNat, codeExp_eq, codeFrac_eq, operandCode_eq, Config.codeBits]
  refine ⟨?_, mod_pow_div_mod (by omega), Nat.mod_mod_of_dvd _ (Nat.pow_dvd_pow 2 (by omega))⟩
  exact mod_pow_div_mod (len := 1) (by omega)

theorem gdec_eq_word {c : Config} (h : c.Legal) (s : BitVec 1) {e f : Nat} (he : e < 2 ^ c.expBits)
    (hf : f < 2 ^ c.mantBits) : c.gdec s e f = word s.toNat (codeMag c e f) := by
  rw [word, ← gdec_toNat h s he hf, BitVec.ofNat_toNat, BitVec.setWidth_eq]

/-- `DEC` by the fields of the code: the three reserved code points, then the general decoding (R86). -/
theorem decodeCode_eq_word {c : Config} (h : c.Legal) (u : Nat) :
    decodeCode c u = word (codeSign c u).toNat
      (if codeExp c u = 0 ∧ codeFrac c u = 0 then 0
       else if codeExp c u = 2 ^ (c.expBits - 1) ∧ codeFrac c u = 0 then oneMag
       else if codeExp c u = ones c.expBits ∧ codeFrac c u = ones c.mantBits then infMag
       else codeMag c (codeExp c u) (codeFrac c u)) := by
  simp only [decodeCode]
  split_ifs
  · exact ofSignMag_eq_word _ 0
  · rw [signedOne, ofSignMag_eq_word, mag_ONE_toNat, oneMag]
  · rw [signedInf, ofSignMag_eq_word, mag_PINF_toNat, infMag]
  · exact gdec_eq_word h _ (codeExp_lt c u) (codeFrac_lt c u)

/-- A code decodes to a special value or a grid point (R86). -/
theorem decodeCode_isSpecial_or_isGridPoint {c : Config} (h : c.Legal) (u : Nat) :
    isSpecial (decodeCode c u) ∨ isGridPoint c (decodeCode c u) := by
  by_cases hu : isReservedCode c u
  · exact .inl (decodeCode_isSpecial hu)
  · rw [decodeCode_of_not_reserved hu]
    exact .inr (gdec_isGridPoint h _ (codeExp_lt c u) (codeFrac_lt c u))

/-- A canonical code decodes to a hub value (R88). -/
theorem decodeCode_isHubValue {c : Config} (h : c.Legal) {u : Nat} (hu : u < 2 ^ c.codeBits)
    (hcanon : isCanonicalCode c u) : isHubValue c (decodeCode c u) := by
  obtain hres | hrange := (isCanonicalCode_iff h hu).1 hcanon
  · exact .inl (decodeCode_isSpecial hres)
  · exact (decodeCode_isSpecial_or_isGridPoint h u).imp id fun hgrid => ⟨hgrid, hrange⟩

end Sys2Proof.Machine
end

section
/-! The obligations of 41_construct.md: the results of `CVT.D`, `CVT.S`, `CVT.W` and `DEC`, and their result sets. -/

namespace Sys2Proof.Construction

open Sys2Proof.Machine Sys2Proof.Reference

/-- Settles O13: the special handler, the pre-rounding, the forced hub bit and the clamp each act on the magnitude as the
reference does, and keep the sign (`constructD_eq_word`). -/
theorem cvtDAnswersTheRoundedHubValue : Obligations.CvtDAnswersTheRoundedHubValue := by
  intro s a h
  rw [exec_legal h, responseWord, constructD_eq_word h]
  rfl

/-- Settles O14: the word is `WIDEN` of the operand, which is exact. -/
theorem cvtSIsCvtDOfTheExactlyWidenedOperand : Obligations.CvtSIsCvtDOfTheExactlyWidenedOperand := by
  intro s a h
  refine ⟨widen (operand32 a), ?_, ?_⟩
  · rw [val_widen, operand32_eq_ofNat]
  · rw [exec_legal h, responseWord, constructD_eq_word h]
    rfl

/-- Settles O15: a widened word has none of the bits that the pre-rounding drops, the hub bit among them, so it is off the
grid and its own pre-rounding. -/
theorem cvtSOnlyAddsTheHubBit : Obligations.CvtSOnlyAddsTheHubBit := by
  intro s a h hp hg
  have hoff := not_onGrid_widen h hp hg
  have hround := preRound_widen h hp hg
  obtain ⟨-, hclear, -⟩ := preRound_mod_cell h hg
  obtain ⟨-, hinf, -⟩ := (classOf_general_iff _ _ h).1 hg
  have hfin : mag (widen (operand32 a)) ≠ mag PINF := by
    rw [Ne, mag_eq_iff, mag_PINF_toNat]
    exact hinf.ne
  rw [hround] at hclear
  refine ⟨hoff, ?_⟩
  rw [exec_legal h, responseWord, constructD_general h hg, if_neg hoff, hround, if_neg hfin, or_hubBit_eq_snap h hclear]
  rfl

/-- Settles O16: the word is `I2D` of the operand's integer, which is exact up to 53 bits. -/
theorem cvtWIsCvtDOfTheExactInteger : Obligations.CvtWIsCvtDOfTheExactInteger := by
  intro s a h
  refine ⟨i2d (operandInt s.config a), ?_, ?_⟩
  · rw [val_i2d (natAbs_operandInt_lt h a), operandInt_eq_twosComplement h]
  · rw [exec_legal h, responseWord, constructD_eq_word h]
    rfl

/-- Settles O17: the code's fields are those of the operand word, and `DEC` goes by the fields. -/
theorem decAnswersTheDecodedCode : Obligations.DecAnswersTheDecodedCode := by
  intro s a h
  obtain ⟨hsign, hexp, hfrac⟩ := fields_operandCode s.config a
  rw [exec_legal h, responseWord, decodeCode_eq_word h, hsign, hexp, hfrac]
  rfl

/-- Settles O27: the reference's magnitude is infinity above `maxVal`, the upper half of the cell of `maxVal` being rounded
up. -/
theorem constructionAboveMaxValSaturates : Obligations.ConstructionAboveMaxValSaturates := by
  intro s a h ha
  rw [exec_legal h, responseWord, constructD_eq_word h, constructMag_of_maxMag_lt h ha]
  rfl

/-- Settles O33: each conversion is `CVT.D` of a word, and only an operand of `CVT.D` itself can be one that is rounded
below `lowestVal`. -/
theorem constructionsAnswerConstructedValues : Obligations.ConstructionsAnswerConstructedValues := by
  constructor
  · rintro s t i ⟨a, hi⟩ hexec
    obtain ⟨h, rfl⟩ := exec_next hexec
    obtain ⟨d, hd, hbelow⟩ : ∃ d, responseWord s.config i = constructD s.config d ∧
        (roundsBelowLowestVal s.config d → i = .cvtD d) := by
      obtain rfl | rfl | rfl := hi
      · exact ⟨a, rfl, fun _ => rfl⟩
      · exact ⟨_, rfl, fun hb => absurd hb (not_roundsBelowLowestVal_widen _ _)⟩
      · exact ⟨_, rfl, fun hb => absurd hb (not_roundsBelowLowestVal_i2d _ (natAbs_operandInt_lt h a))⟩
    have hcons := constructD_isConstructed h d
    dsimp only
    rw [hd]
    refine ⟨hcons, not_isNaN_of_isConstructed hcons, fun hne => ?_⟩
    obtain ⟨⟨hp, hexp, hlow, hhigh⟩, hword⟩ := (constructD_isHubValue_or h d).resolve_left hne
    exact ⟨hp, d, hbelow ⟨hp, hexp, hlow, hhigh⟩, hexp, hlow, hhigh, hword⟩
  · intro s t a hexec
    obtain ⟨h, rfl⟩ := exec_next hexec
    exact ⟨decodeCode_isSpecial_or_isGridPoint h _, decodeCode_isHubValue h (operandCode_lt _ a)⟩

/-- Settles O42: both answers have the operand's sign, `QNT`'s magnitude is the cell's grid point, and construction's is
that grid point exactly in the lower half. -/
theorem cvtDAndQntAgreeInTheLowerHalfCell : Obligations.CvtDAndQntAgreeInTheLowerHalfCell := by
  intro s a h hround hgeneral hedge
  have hcells : roundsToCells s.config (magOf a) := by rwa [roundsToCells, magOf_div_binade]
  obtain ⟨hsign, hmag⟩ := quantize_below_edge h hgeneral hedge
  have hwords : constructD s.config a = quantize s.config a ↔
      (mag (constructD s.config a)).toNat = (mag (quantize s.config a)).toNat :=
    ⟨fun heq => by rw [heq],
      fun heq => word_ext ((sign_constructD h hgeneral).trans hsign.symm) (BitVec.eq_of_toNat_eq heq)⟩
  calc exec (.cvtD a) s = exec (.qnt a) s
      ↔ constructD s.config a = quantize s.config a := by simp [exec_legal h, responseWord, responseRecord]
    _ ↔ magOf a % 2 ^ s.config.shift ≤ s.config.hubBit.toNat := by
      rw [hwords, mag_constructD h hgeneral, hmag]
      exact constructMag_eq_cell_iff h ((classOf_eq_iff h a .general).1 hgeneral) hcells hedge

end Sys2Proof.Construction
end

section
/-! SUPPORT. `QNT` by the numbers of the reference, and the hub values it answers (42_quantize.md R100 to R104). -/

namespace Sys2Proof.Machine

open Sys2Proof.Reference

theorem midMag_eq {c : Config} (h : c.Legal) (m : Nat) :
    midMag c m = m / 2 ^ c.shift * 2 ^ c.shift + c.hubBit.toNat := by
  rw [midMag, hubBit_eq_pow h]
  rfl

theorem mag_snap_eq_midMag {c : Config} (h : c.Legal) (d : Word) : (mag (snap c d)).toNat = midMag c (magOf d) := by
  rw [mag_snap h, midMag_eq h, mag_toNat d, magOf]

/-- The sign bit of the operand reaches the response, of a collapsed NaN and a saturated word too. -/
theorem sign_quantize {c : Config} (h : c.Legal) (a : Word) : sign (quantize c a) = sign a := by
  by_cases ha : classOf c a = .general
  · rw [quantize_general ha, sign_clamp, sign_snap h]
  · obtain ⟨hsign, -, -⟩ := quantize_handled ha
    exact hsign

theorem quantMag_of_general {c : Config} (h : c.Legal) {a : Word} (ha : classOf c a = .general) :
    quantMag c (magOf a) = clampMag c (midMag c (magOf a)) :=
  specialMag_of_general ((classOf_eq_iff h a .general).1 ha) h _

/-- `QNT` by numbers alone, for every word (R101). -/
theorem quantize_eq_word {c : Config} (h : c.Legal) (a : Word) :
    quantize c a = word (signOf a) (quantMag c (magOf a)) := by
  by_cases ha : classOf c a = .general
  · have hmag : (mag (quantize c a)).toNat = quantMag c (magOf a) := by
      rw [quantize_general ha, mag_clamp h, mag_snap_eq_midMag h, quantMag_of_general h ha]
    rw [← hmag, ← eq_word_of_sign (sign_quantize h a)]
  · exact quantize_of_special (special_of_not_general h ha _)

/-- The cells of a word and of its snap are the same, the word's sign and exponent included (R100). -/
theorem snap_toNat_div_cell {c : Config} (h : c.Legal) (d : Word) :
    (snap c d).toNat / 2 ^ c.shift = d.toNat / 2 ^ c.shift := by
  have hwidth := h.cell_width
  have hpos := Config.hubBit_pos h
  rw [snap_toNat h, Nat.mul_comm, Nat.mul_add_div (Nat.two_pow_pos _),
    Nat.div_eq_of_lt (a := c.hubBit.toNat) (by omega), Nat.add_zero]

/-- A word is on the grid exactly when it is its own snap. -/
theorem onGrid_iff_snap_eq {c : Config} (h : c.Legal) (d : Word) : onGrid c d ↔ snap c d = d := by
  refine ⟨snap_of_onGrid h, fun heq => ?_⟩
  rw [onGrid_iff h, ← heq, snap_mod_cell h]

/-- The hub bit of the default widths. -/
theorem hubBit_of_mantBits {c : Config} (hm : c.mantBits = 23) : c.hubBit = 0x0000000010000000 := by
  rw [Config.hubBit, Config.shift, hm]
  rfl

/-- The midpoint of a cell is above `maxVal` exactly from the top edge of the cell of `maxVal` up (R103). -/
theorem maxMag_lt_midMag_iff {c : Config} (h : c.Legal) (m : Nat) :
    maxMag c < midMag c m ↔ maxCellEdge c ≤ m := by
  rw [midMag_eq h]
  refine ⟨fun hover => not_lt.1 fun hedge => hover.not_ge (cell_add_hubBit_le_maxMag h hedge), fun hedge => ?_⟩
  have hwidth := h.cell_width
  have hpos := Config.hubBit_pos h
  have hmax := Nat.div_add_mod' (maxMag c) (2 ^ c.shift)
  rw [maxMag_mod_cell h] at hmax
  rw [maxCellEdge_eq h, ← Nat.succ_mul, ← Nat.le_div_iff_mul_le (Nat.two_pow_pos _)] at hedge
  have hcells := Nat.mul_le_mul_right (2 ^ c.shift) hedge
  rw [Nat.succ_mul] at hcells
  omega

/-- From `maxVal` up to that edge the midpoint of the cell is `maxVal` (R103). -/
theorem midMag_eq_maxMag {c : Config} (h : c.Legal) {m : Nat} (hmax : maxMag c ≤ m) (hedge : m < maxCellEdge c) :
    midMag c m = maxMag c := by
  have hle := (maxMag_lt_midMag_iff h m).not.2 hedge.not_ge
  have hcell := Nat.mul_le_mul_right (2 ^ c.shift) (Nat.div_le_div_right (c := 2 ^ c.shift) hmax)
  have hgrid := Nat.div_add_mod' (maxMag c) (2 ^ c.shift)
  rw [maxMag_mod_cell h] at hgrid
  rw [midMag_eq h] at hle ⊢
  omega

/-- `QNT` answers a hub value, of every operand (R104). -/
theorem quantize_isHubValue {c : Config} (h : c.Legal) (a : Word) : isHubValue c (quantize c a) := by
  by_cases ha : classOf c a = .general
  · obtain ⟨-, -, hon⟩ := snap_isGridPoint h ha
    obtain ⟨hlow, -⟩ := snap_general h ha
    rw [quantize_general ha]
    exact clamp_isHubValue h hon hlow
  · obtain ⟨-, hspecial, -⟩ := quantize_handled ha
    exact .inl hspecial

/-- No hub value is subnormal: of the special values only zero has the exponent field 0. -/
theorem mag_eq_zero_of_isHubValue {c : Config} {v : Word} (hv : isHubValue c v) (hexp : (nexp v).toNat = 0) :
    mag v = 0 := by
  have hmag := mag_toNat_fields v
  have hfrac := (nfrac v).isLt
  obtain (hzero | hinf | hone) | ⟨⟨hnormal, -, -⟩, -⟩ := hv
  · exact hzero
  · rw [hinf, mag_PINF_toNat] at hmag
    omega
  · rw [hone, mag_ONE_toNat] at hmag
    omega
  · omega

end Sys2Proof.Machine
end

section
/-! The obligations of 42_quantize.md: the snap, the result of `QNT`, where it saturates, and its result set. -/

namespace Sys2Proof.Quantization

open Sys2Proof.Machine Sys2Proof.Reference

/-- Settles O12: the special handler, the snap and the clamp each act on the magnitude as the reference does, and keep the
sign (`quantize_eq_word`). -/
theorem qntAnswersTheClampedSnap : Obligations.QntAnswersTheClampedSnap := by
  intro s a h
  rw [exec_legal h, responseWord, quantize_eq_word h]
  rfl

/-- Settles O29: the bits by `snap_getLsbD`; the distances because the snapped word is the lower edge of the operand's cell
plus `HUB_BIT`, half a cell. -/
theorem snapIsTheMidpointOfTheCell : Obligations.SnapIsTheMidpointOfTheCell := by
  refine ⟨fun c d h => ?_, fun c d _ _ hm => ?_⟩
  · have hwidth := h.cell_width
    have hshift := h.shift_bounds
    have hsnap := snap_toNat h d
    have hcell := Nat.div_add_mod' d.toNat (2 ^ c.shift)
    have hlow := Nat.mod_lt d.toNat (Nat.two_pow_pos c.shift)
    refine ⟨fun i hi => ?_, ?_, fun i hi => ?_, snap_toNat_div_cell h d, fun hedge => ?_, fun hupper => ?_,
      onGrid_iff_snap_eq h d⟩
    · rw [snap_getLsbD h, decide_eq_false (by omega), decide_eq_true hi, Bool.false_or, Bool.true_and]
    · rw [snap_getLsbD h, decide_eq_true rfl, Bool.true_or]
    · rw [snap_getLsbD h, decide_eq_false (by omega), decide_eq_false (by omega), Bool.false_or, Bool.false_and]
    · omega
    · omega
  · rw [snap, hubBit_of_mantBits hm]
    rfl

/-- Settles O30: a `QNT` response is a hub value, and `QNT` keeps every hub value. -/
theorem quantizationIsIdempotent : Obligations.QuantizationIsIdempotent := by
  intro s t a hexec
  obtain ⟨hs, ht⟩ := exec_next hexec
  have h : t.config.Legal := by rwa [ht]
  have hy : t.y = quantize t.config a := by rw [ht]; rfl
  have hbf : t.bf = none := by rw [ht]; rfl
  have hkeep : quantize t.config t.y = t.y := by
    rw [hy]
    exact quantize_of_isHubValue h (quantize_isHubValue h a)
  rw [exec_legal h, responseWord, responseRecord, hkeep, ← hbf]

/-- Settles O31: the midpoint of the operand's cell is above `maxVal` from the top edge of the cell of `maxVal` up, and is
`maxVal` in the upper half of that cell. -/
theorem qntSaturatesFromTheTopEdgeOfMaxValsCell : Obligations.QntSaturatesFromTheTopEdgeOfMaxValsCell := by
  refine ⟨fun s a h ha => ?_, by decide⟩
  have hover := maxMag_lt_midMag_iff h (magOf a)
  rw [exec_legal h, responseWord, quantize_eq_word h, quantMag_of_general h ha, clampMag]
  refine ⟨?_, fun hedge => ?_, fun hmax hedge => ?_⟩
  · rw [gt_iff_lt, mag_lt_iff, mag_maxVal_eq_maxMag h, mag_snap_eq_midMag h, hover]
  · rw [if_pos (hover.2 hedge)]
    rfl
  · rw [midMag_eq_maxMag h hmax hedge, if_neg (lt_irrefl _)]
    rfl

/-- Settles O32: the response is a hub value (`quantize_isHubValue`), and the other clauses hold of every hub value. -/
theorem qntAlwaysAnswersAHubValue : Obligations.QntAlwaysAnswersAHubValue := by
  intro s t a hexec
  obtain ⟨h, rfl⟩ := exec_next hexec
  have hhub : isHubValue s.config (quantize s.config a) := quantize_isHubValue h a
  exact ⟨hhub, not_isNaN_of_isConstructed (isConstructed_of_isHubValue hhub), mag_eq_zero_of_isHubValue hhub,
    fun hoff => hhub.resolve_right fun ⟨⟨_, _, hon⟩, _⟩ => hoff hon⟩

end Sys2Proof.Quantization
end

section
/-! SUPPORT. The arithmetic contract: what `FMA` answers (43_arithmetic.md R113), and when IEEE arithmetic generates a NaN
(R110, R112, R114). -/

namespace Sys2Proof.Machine

theorem contractFma_eq_error_iff {c : Config} {A : Arith} {x y z : Word} :
    contractFma c A x y z = .error .fmaCorrectionOpen ↔ fmaCorrected c ∧ belowHub c (A.fma64 x y z) = 0 := by
  unfold contractFma
  split_ifs with h
  · exact iff_of_true rfl h
  · exact iff_of_false nofun h

theorem contractFma_eq_ok_iff {c : Config} {A : Arith} {x y z w : Word} :
    contractFma c A x y z = .ok w ↔
      ¬ (fmaCorrected c ∧ belowHub c (A.fma64 x y z) = 0) ∧ quantize c (A.fma64 x y z) = w := by
  unfold contractFma
  split_ifs with h
  · exact iff_of_false nofun fun hoff => hoff.1 h
  · rw [Except.ok.injEq]
    exact (and_iff_right h).symm

/-- In 8/23 the bits below the hub bit are the low 28 (42_quantize.md R100). -/
theorem belowHub_of_mantBits {c : Config} (hm : c.mantBits = 23) (r : Word) : belowHub c r = r.toNat % 2 ^ 28 := by
  rw [belowHub, slice_eq, Config.shift, hm, pow_zero, Nat.div_one]

/-- Off the grid boundaries an admissible correction is the identity, and where it is disabled it is not read. -/
theorem contractFmaWith_of_admissible {c : Config} {F : FmaCorrect} (hF : F.Admissible c) {A : Arith} {x y z : Word}
    (h : ¬ (fmaCorrected c ∧ belowHub c (A.fma64 x y z) = 0)) :
    contractFmaWith c A F x y z = quantize c (A.fma64 x y z) := by
  unfold contractFmaWith
  split_ifs with hc
  · rw [hF x y z _ fun hzero => h ⟨hc, hzero⟩]
  · rfl

/-- The correction function that answers the word `v` on the grid boundaries. -/
def boundaryCorrect (c : Config) (v : Word) : FmaCorrect := fun _ _ _ r => if belowHub c r = 0 then v else r

theorem boundaryCorrect_admissible (c : Config) (v : Word) : (boundaryCorrect c v).Admissible c :=
  fun _ _ _ _ hr => if_neg hr

theorem contractFmaWith_boundaryCorrect {c : Config} {A : Arith} {x y z v : Word} (hc : fmaCorrected c)
    (hr : belowHub c (A.fma64 x y z) = 0) (hv : isSpecial v) :
    contractFmaWith c A (boundaryCorrect c v) x y z = v := by
  rw [contractFmaWith, if_pos hc, boundaryCorrect, if_pos hr, quantize_of_isSpecial hv]

@[simp] theorem isInfWord_iff (d : Word) : isInfWord d = true ↔ mag d = mag PINF := decide_eq_true_iff

@[simp] theorem isZeroWord_iff (d : Word) : isZeroWord d = true ↔ mag d = 0 := decide_eq_true_iff

@[simp] theorem mag_negate (d : Word) : mag (negate d) = mag d := by
  rw [mag, negate, BitVec.extractLsb'_xor]
  exact BitVec.xor_zero

theorem sign_negate (d : Word) : sign (negate d) = sign d ^^^ 1 := by
  rw [sign, negate, BitVec.extractLsb'_xor]
  rfl

theorem sign_ne_sign_negate {a b : Word} (h : sign a = sign b) : sign a ≠ sign (negate b) := by
  rw [sign_negate, h]
  generalize sign b = s
  revert s
  decide

theorem signBit_productSign (a b : Word) : signBit (productSign a b) = sign a ^^^ sign b := by
  unfold productSign
  generalize sign a = s, sign b = t
  revert s t
  decide

/-- Infinities that cancel generate a NaN. -/
theorem sumOr_of_opposite_infinities (generated : Word) {a b : Word} (ha : mag a = mag PINF) (hb : mag b = mag PINF)
    (hs : sign a ≠ sign b) : sumOr generated a b = generated := by
  simp [sumOr, ha, hb, hs]

theorem isNaN_ieeeAdd_of_opposite_infinities {a b : Word} (ha : mag a = mag PINF) (hb : mag b = mag PINF)
    (hs : sign a ≠ sign b) : isNaN (ieeeAdd a b) := by
  rw [ieeeAdd, sumOr_of_opposite_infinities _ ha hb hs]
  exact drawNaN_isNaN _ _ _ _

theorem isNaN_ieeeSub_of_equal_infinities {a b : Word} (ha : mag a = mag PINF) (hb : mag b = mag PINF)
    (hs : sign a = sign b) : isNaN (ieeeSub a b) := by
  rw [ieeeSub, sumOr_of_opposite_infinities _ ha ((mag_negate b).trans hb) (sign_ne_sign_negate hs)]
  exact drawNaN_isNaN _ _ _ _

/-- Zero times infinity, in either order. -/
abbrev isZeroTimesInf (a b : Word) : Prop := (mag a = mag PINF ∧ mag b = 0) ∨ (mag a = 0 ∧ mag b = mag PINF)

theorem isNaN_ieeeMul_of_isZeroTimesInf {a b : Word} (h : isZeroTimesInf a b) : isNaN (ieeeMul a b) := by
  rw [ieeeMul, if_pos (by obtain ⟨ha, hb⟩ | ⟨ha, hb⟩ := h <;> simp [ha, hb])]
  exact drawNaN_isNaN _ _ _ _

theorem isNaN_ieeeFma_of_isZeroTimesInf {a b : Word} (h : isZeroTimesInf a b) (c : Word) : isNaN (ieeeFma a b c) := by
  rw [ieeeFma, if_pos (by obtain ⟨ha, hb⟩ | ⟨ha, hb⟩ := h <;> simp [ha, hb])]
  exact drawNaN_isNaN _ _ _ _

/-- A product with an infinite factor and an infinite addend of the other sign: the infinities cancel, unless the product
generates a NaN already. -/
theorem isNaN_ieeeFma_of_opposite_infinities {a b c : Word} (hab : mag a = mag PINF ∨ mag b = mag PINF)
    (hc : mag c = mag PINF) (hs : sign c ≠ sign a ^^^ sign b) : isNaN (ieeeFma a b c) := by
  have hsum : sumOr (drawNaN .fma a b c) (signedInf (signBit (productSign a b))) c = drawNaN .fma a b c := by
    refine sumOr_of_opposite_infinities _ (mag_signedInf _) hc ?_
    rw [sign_signedInf, signBit_productSign]
    exact hs.symm
  unfold ieeeFma
  split_ifs with _ hinf
  · exact drawNaN_isNaN _ _ _ _
  · rw [hsum]
    exact drawNaN_isNaN _ _ _ _
  · exact absurd (by simpa using hab) hinf
  · exact absurd (by simpa using hab) hinf

/-- Infinity by infinity and zero by zero generate a NaN. -/
theorem isNaN_ieeeDiv {a b : Word} (h : (mag a = mag PINF ∧ mag b = mag PINF) ∨ (mag a = 0 ∧ mag b = 0)) :
    isNaN (ieeeDiv a b) := by
  rw [ieeeDiv, if_pos (by obtain ⟨ha, hb⟩ | ⟨ha, hb⟩ := h <;> simp [ha, hb])]
  exact drawNaN_isNaN _ _ _ _

theorem isNaN_ieeeSqrt_of_negative {a : Word} (hs : sign a = 1) (hz : mag a ≠ 0) : isNaN (ieeeSqrt a) := by
  rw [ieeeSqrt, if_neg (c := isZeroWord a = true) (by simpa using hz), if_pos hs, ite_self]
  exact drawNaN_isNaN _ _ _ _

end Sys2Proof.Machine
end

section
/-! The obligations of 43_arithmetic.md: closure, the value of `FMA`, natively generated NaNs, and the second example. -/

namespace Sys2Proof.Arithmetic

open Sys2Proof.Machine

/-- Settles O47: the native sum is two, the lower edge of a grid cell, and `QNT` sets its hub bit. -/
theorem onePlusOneIsTheGeneralTwo : Obligations.OnePlusOneIsTheGeneralTwo := by
  have hsum : nativeBin ieeeArith .add ONE ONE = 0x4000000000000000 := by decide +kernel
  refine ⟨?_, by decide⟩
  rw [contractBin, hsum]
  decide

/-- Settles O45: every value of a contract operation is an answer of `QNT`, a hub value (`quantize_isHubValue`). -/
theorem contractArithmeticIsClosed : Obligations.ContractArithmeticIsClosed := by
  intro c A op x y z h
  refine ⟨quantize_isHubValue h _, quantize_isHubValue h _, quantize_isHubValue h _, fun w hw => ?_⟩
  obtain ⟨-, rfl⟩ := contractFma_eq_ok_iff.1 hw
  have hhub := quantize_isHubValue h (A.fma64 x y z)
  exact ⟨hhub, not_isNaN_of_isConstructed (isConstructed_of_isHubValue hhub)⟩

/-- Settles O46: off the boundaries an admissible correction is the identity; on one it may answer zero or one, which
`QNT` keeps. -/
theorem fmaAnswersWhateverTheCorrection : Obligations.FmaAnswersWhateverTheCorrection := by
  intro c A x y z _
  refine ⟨fun w hw F hF => ?_, ?_, fun herror => ?_⟩
  · obtain ⟨hoff, rfl⟩ := contractFma_eq_ok_iff.1 hw
    exact contractFmaWith_of_admissible hF hoff
  · rw [contractFma_eq_error_iff, and_assoc]
    refine and_congr_right fun _ => and_congr_right fun hm => ?_
    rw [belowHub_of_mantBits hm]
  · obtain ⟨hc, hr⟩ := contractFma_eq_error_iff.1 herror
    refine ⟨boundaryCorrect c 0, boundaryCorrect c ONE, boundaryCorrect_admissible c 0,
      boundaryCorrect_admissible c ONE, ?_⟩
    rw [contractFmaWith_boundaryCorrect hc hr (.inl (by decide)),
      contractFmaWith_boundaryCorrect hc hr (.inr (.inr rfl))]
    decide

/-- Settles O48: `quantize_nan` for whatever the native operations are; then one law of IEEE arithmetic for each way to
generate a NaN. -/
theorem nativeNaNsBecomeInfinities : Obligations.NativeNaNsBecomeInfinities := by
  refine ⟨fun c A => ⟨fun op x y => quantize_nan c, fun x => quantize_nan c, fun x y z w hnan hw => ?_⟩,
    fun x y hx hy => ⟨isNaN_ieeeSub_of_equal_infinities hx hy, isNaN_ieeeAdd_of_opposite_infinities hx hy,
      isNaN_ieeeDiv (.inl ⟨hx, hy⟩)⟩,
    fun x y hx hy => ?_, fun x y hx hy => isNaN_ieeeDiv (.inr ⟨hx, hy⟩), fun x => isNaN_ieeeSqrt_of_negative,
    fun x y z hx _ hz hs => ⟨isNaN_ieeeFma_of_opposite_infinities (.inl hx) hz hs,
      isNaN_ieeeFma_of_opposite_infinities (.inr hx) hz ?_⟩⟩
  · obtain ⟨-, rfl⟩ := contractFma_eq_ok_iff.1 hw
    exact quantize_nan c hnan
  · have hxy : isZeroTimesInf x y := .inr ⟨hx, hy⟩
    have hyx : isZeroTimesInf y x := .inl ⟨hy, hx⟩
    exact ⟨isNaN_ieeeMul_of_isZeroTimesInf hxy, isNaN_ieeeMul_of_isZeroTimesInf hyx,
      fun z => ⟨isNaN_ieeeFma_of_isZeroTimesInf hxy z, isNaN_ieeeFma_of_isZeroTimesInf hyx z⟩⟩
  · rwa [BitVec.xor_comm]

end Sys2Proof.Arithmetic
end

section
/-! SUPPORT. Packing and unpacking undo each other, and the record as numbers (44_extract_format.md R120 to R122,
R127). -/

namespace Sys2Proof.Machine

open Sys2Proof.Reference

/-- What an operation answers after another, the configuration being kept (10_state.md R24). -/
theorem exec_after_exec {s t : State} {i : Instr} (hexec : exec i s = .next t) (j : Instr) :
    exec j t = .next { t with y := responseWord s.config j, bf := responseRecord s.config j } := by
  obtain ⟨h, rfl⟩ := exec_next hexec
  exact exec_legal (s := { s with y := _, bf := _ }) h j

/-- A number that fits `N` bits is the code it carries (30_encoding.md R57). -/
theorem operandCode_of_lt {c : Config} {a : Word} (ha : a.toNat < 2 ^ c.codeBits) : operandCode c a = a.toNat := by
  rw [operandCode_eq, Nat.mod_eq_of_lt ha]

/-- The exponent field of one fits its width. -/
theorem unityExp_lt {c : Config} (h : c.Legal) : 2 ^ (c.expBits - 1) < 2 ^ c.expBits := by
  have := Nat.two_pow_pos (c.expBits - 1)
  rw [h.pow_exp]
  omega

/-- The three reserved code points decode to the special values (30_encoding.md R53, 41_construct.md R86). -/
theorem decodeCode_packCode_zero (c : Config) (s : BitVec 1) : decodeCode c (packCode c s 0 0) = signedZero s := by
  obtain ⟨hs, he, hf⟩ := fields_packCode c s (Nat.two_pow_pos c.expBits) (Nat.two_pow_pos c.mantBits)
  simp only [decodeCode, hs, he, hf, and_self, if_true]

theorem decodeCode_packCode_one {c : Config} (h : c.Legal) (s : BitVec 1) :
    decodeCode c (packCode c s (2 ^ (c.expBits - 1)) 0) = signedOne s := by
  have hpos := Nat.two_pow_pos (c.expBits - 1)
  obtain ⟨hs, he, hf⟩ := fields_packCode c s (unityExp_lt h) (Nat.two_pow_pos c.mantBits)
  simp only [decodeCode, hs, he, hf, hpos.ne', false_and, and_self, if_false, if_true]

theorem decodeCode_packCode_inf {c : Config} (h : c.Legal) (s : BitVec 1) :
    decodeCode c (packCode c s (ones c.expBits) (ones c.mantBits)) = signedInf s := by
  have hfrac : ones c.mantBits ≠ 0 := (Nat.sub_pos_of_lt h.one_lt_pow_mant).ne'
  obtain ⟨hs, he, hf⟩ := fields_packCode c s (e := ones c.expBits) (f := ones c.mantBits)
    (Nat.sub_one_lt (Nat.two_pow_pos _).ne') (Nat.sub_one_lt (Nat.two_pow_pos _).ne')
  simp only [decodeCode, hs, he, hf, hfrac, and_false, and_self, if_false, if_true]

/-- A special value comes back from its reserved code. -/
theorem decodeCode_encodeValue_of_isSpecial {c : Config} (h : c.Legal) {v : Word} (hv : isSpecial v) :
    decodeCode c (encodeValue c v).toNat = v := by
  rw [encodeValue_toNat h]
  obtain hv | hv | hv := hv
  · rw [extractFields_zero hv, decodeCode_packCode_zero]
    exact word_ext (sign_signedZero _) ((mag_signedZero _).trans hv.symm)
  · rw [extractFields_inf hv, decodeCode_packCode_inf h]
    exact word_ext (sign_signedInf _) ((mag_signedInf _).trans hv.symm)
  · rw [extractFields_one hv, decodeCode_packCode_one h]
    exact word_ext (sign_signedOne _) ((mag_signedOne _).trans hv.symm)

/-- The only reserved code that a grid point in range can have is that of one: zero's code is below that of `lowestVal`,
and infinity's above that of `maxVal`. -/
theorem fields_of_isReservedCode_gdec {c : Config} (h : c.Legal) {s : BitVec 1} {e f : Nat} (he : e < 2 ^ c.expBits)
    (hf : f < 2 ^ c.mantBits) (hrange : inRange c (c.gdec s e f))
    (hres : isReservedCode c (encodeValue c (c.gdec s e f)).toNat) : e = 2 ^ (c.expBits - 1) ∧ f = 0 := by
  obtain ⟨hmaxExp, hmaxFrac⟩ := maxVal_fields_lt h
  have hnotInf : ¬ (c.maxvalExpField = 2 ^ c.expBits - 1 ∧ c.maxvalFracField = 2 ^ c.mantBits - 1) := by
    obtain ⟨-, -, -, hne, -⟩ := h
    exact hne
  obtain ⟨-, hexp, hfrac⟩ := fields_packCode c s he hf
  rw [isReservedCode, encodeValue_gdec h s he hf, hexp, hfrac, ones_eq, ones_eq] at hres
  rw [inRange, mag_le_iff, mag_le_iff, Config.lowestVal, Config.maxVal,
    gdec_mag_le_iff h (Nat.two_pow_pos _) h.one_lt_pow_mant he hf, gdec_mag_le_iff h he hf hmaxExp hmaxFrac] at hrange
  obtain ⟨hlow, hhigh⟩ := hrange
  obtain hzero | hone | hinf := hres
  · omega
  · exact hone
  · omega

/-- `unityAlias` packs to the code of one (70_reset_and_hazards.md R152). -/
theorem decodeCode_encodeValue_unityAlias {c : Config} (h : c.Legal) (g : BitVec 1) :
    decodeCode c (encodeValue c (unityAlias c g)).toNat = signedOne g := by
  rw [unityAlias_eq_gdec h, encodeValue_gdec h g (unityExp_lt h) (Nat.two_pow_pos _), decodeCode_packCode_one h]

/-- Unpacking the code of a hub value gives it back, but for `unityAlias` (R127, second part). -/
theorem decodeCode_encodeValue_of_isHubValue {c : Config} (h : c.Legal) {v : Word} (hv : isHubValue c v)
    (hne : ∀ g, v ≠ unityAlias c g) : decodeCode c (encodeValue c v).toNat = v := by
  obtain hspecial | ⟨hgrid, hrange⟩ := hv
  · exact decodeCode_encodeValue_of_isSpecial h hspecial
  · obtain ⟨e, f, he, hf, hgdec⟩ := inRange_eq_gdec h hgrid hrange
    rw [hgdec] at hrange ⊢
    refine decodeCode_encodeValue_gdec h _ he hf fun hres => hne (sign v) ?_
    obtain ⟨rfl, rfl⟩ := fields_of_isReservedCode_gdec h he hf hrange hres
    rw [unityAlias_eq_gdec h, ← hgdec]

/-- The packed code as a number of the record's fields (R122). -/
theorem encodeValue_eq_ofNat {c : Config} (h : c.Legal) (v : Word) :
    encodeValue c v = BitVec.ofNat 64 (((extractFields c v).sign.toNat * 2 ^ c.expBits + (extractFields c v).cExp) *
      2 ^ c.mantBits + (extractFields c v).cFrac) := by
  obtain ⟨hexp, hfrac, -⟩ := fits_extractFields h v
  rw [encodeValue, packFields, packCode_eq c _ hexp hfrac]

theorem mag_eq_iff_magOf (a : Word) (m : BitVec 63) : mag a = m ↔ magOf a = m.toNat := by
  rw [mag_eq_iff, mag_toNat, magOf]

/-- The record of every word holds the word's own three fields (R120). -/
theorem extractFields_native (c : Config) (v : Word) :
    (extractFields c v).sign = sign v ∧ (extractFields c v).nativeExp = nexp v ∧
      (extractFields c v).nativeFrac = nfrac v := by
  unfold extractFields
  dsimp only
  split_ifs <;> exact ⟨rfl, rfl, rfl⟩

/-- An exponent that rebases into range is the record's `c_exp` (R120). -/
theorem generalCExp_of_inRange {c : Config} {v : Word} (hlow : c.biasDiff ≤ (nexp v).toNat)
    (hhigh : (nexp v).toNat - c.biasDiff ≤ c.customMaxExp) : generalCExp c v = (nexp v).toNat - c.biasDiff :=
  if_pos ⟨hlow, hhigh⟩

end Sys2Proof.Machine
end

section
/-! SUPPORT. The digits of a rendering and what they read back as (44_extract_format.md R124, R125). -/

namespace Sys2Proof.Machine

theorem length_digits (b n k : Nat) : (digits b n k).length = k := by
  induction k with
  | zero => rfl
  | succ k ih => rw [digits, List.length_cons, ih]

theorem exists_digit_of_mem_digits {b n k : Nat} {ch : Char} (hch : ch ∈ digits b n k) :
    ∃ d < 2 ^ b, ch = digitChar d := by
  induction k with
  | zero => exact absurd hch List.not_mem_nil
  | succ k ih =>
    obtain rfl | hch := List.mem_cons.1 hch
    · exact ⟨_, slice_lt _ _ _, rfl⟩
    · exact ih hch

theorem charDigit_digitChar : ∀ d < 2 ^ 4, charDigit (digitChar d) = d := by decide

theorem foldl_digits {b : Nat} (hb : b ≤ 4) (n k acc : Nat) :
    (digits b n k).foldl (fun m ch => m * 2 ^ b + charDigit ch) acc = acc * 2 ^ (b * k) + n % 2 ^ (b * k) := by
  induction k generalizing acc with
  | zero => simp [digits, Nat.mod_one]
  | succ k ih =>
    have hdigit : slice n (b * k) b < 2 ^ 4 := (slice_lt _ _ _).trans_le (Nat.pow_le_pow_right (by decide) hb)
    rw [digits, List.foldl_cons, ih, charDigit_digitChar _ hdigit, slice_eq, Nat.mul_succ, Nat.pow_add, Nat.mod_mul]
    ring

/-- Reading the digits of a number that fits them gives the number. -/
theorem readDigits_digits {b n k : Nat} (hb : b ≤ 4) (hn : n < 2 ^ (b * k)) : readDigits b (digits b n k) = n := by
  rw [readDigits, foldl_digits hb, Nat.zero_mul, Nat.zero_add, Nat.mod_eq_of_lt hn]

theorem readDigits_binary {n k : Nat} (hn : n < 2 ^ k) : readDigits 1 (digits 1 n k) = n :=
  readDigits_digits (by decide) (by rwa [Nat.one_mul])

theorem isBinaryDigit_of_mem_digits {n k : Nat} {ch : Char} (hch : ch ∈ digits 1 n k) : ch = '0' ∨ ch = '1' := by
  obtain ⟨d, hd, rfl⟩ := exists_digit_of_mem_digits hch
  clear hch
  revert d
  decide

theorem isHexDigit_of_mem_digits {n k : Nat} {ch : Char} (hch : ch ∈ digits 4 n k) :
    ch ∈ ['0', '1', '2', '3', '4', '5', '6', '7', '8', '9', 'A', 'B', 'C', 'D', 'E', 'F'] := by
  obtain ⟨d, hd, rfl⟩ := exists_digit_of_mem_digits hch
  clear hch
  revert d
  decide

/-- The hexadecimal width is the least that holds the code (R125). -/
theorem hexWidth_bounds (c : Config) : 4 * hexWidth c < c.codeBits + 4 ∧ c.codeBits ≤ 4 * hexWidth c := by
  unfold hexWidth
  omega

end Sys2Proof.Machine
end

section
/-! The obligations of 44_extract_format.md: the two round trips, the record, the packed code, the renderings and the
read-back. -/

namespace Sys2Proof.ExtractFormat

open Sys2Proof.Machine Sys2Proof.Reference

/-- Settles O35: the operand is its own code, and packing inverts decoding on codes (`encodeValue_decodeCode`). -/
theorem everyCodeRoundTrips : Obligations.EveryCodeRoundTrips := by
  intro s t a ha hdec
  obtain ⟨h, ht⟩ := exec_next hdec
  have hy : t.y = decodeCode s.config a.toNat := by rw [ht, responseWord, operandCode_of_lt ha]
  have hback : encodeValue s.config t.y = a := by
    apply BitVec.eq_of_toNat_eq
    rw [hy, encodeValue_decodeCode h ha]
  rw [exec_after_exec hdec, responseWord, responseRecord, hback]

/-- Settles O36: a special value has its own reserved code, and of the grid points in range only `unityAlias` has a
reserved code. -/
theorem hubValuesRoundTripExceptTheUnityAlias : Obligations.HubValuesRoundTripExceptTheUnityAlias := by
  intro s t v hv henc
  obtain ⟨h, ht⟩ := exec_next henc
  have hy : operandCode s.config t.y = (encodeValue s.config v).toNat := by
    rw [ht, responseWord, operandCode_of_lt (encodeValue_lt h v)]
  rw [exec_after_exec henc, responseWord, responseRecord, hy]
  constructor
  · intro hne
    rw [decodeCode_encodeValue_of_isHubValue h hv hne]
  · rintro g rfl
    rw [decodeCode_encodeValue_unityAlias h]

/-- Settles O19: the record is that of the operand's class, and a reserved pattern's fraction with the hub bit is its
fraction with the open bit below. -/
theorem xbfAnswersTheFields : Obligations.XbfAnswersTheFields := by
  intro s a h
  obtain ⟨hsign, hexp, hfrac⟩ := extractFields_native s.config a
  obtain ⟨hcExp, -, -, hhub⟩ := fits_extractFields h a
  refine ⟨extractFields s.config a, ?_, ?_, ?_, ?_, hcExp, fun ha => ?_, fun ha => ?_, fun ha => ?_,
    fun hzero hone hinf => ?_⟩
  · rw [exec_legal h, responseWord, responseRecord, encodeValue_eq_ofNat h]
  · rw [hsign, sign_toNat]
  · rw [hexp, nexp_toNat]
  · rw [hfrac, nfrac_toNat]
  · have hmag : mag a = 0 := (mag_eq_iff_magOf a 0).2 ha
    rw [hhub, extractFields_zero hmag]
    exact ⟨rfl, rfl, rfl⟩
  · have hmag : mag a = mag ONE := (mag_eq_iff_magOf a _).2 (ha.trans mag_ONE_toNat.symm)
    rw [hhub, extractFields_one hmag]
    exact ⟨rfl, rfl, rfl⟩
  · have hmag : mag a = mag PINF := (mag_eq_iff_magOf a _).2 (ha.trans mag_PINF_toNat.symm)
    rw [hhub, extractFields_inf hmag]
    exact ⟨rfl, rfl, rfl⟩
  · have hgeneral : ¬ isSpecial a := by
      rw [isSpecial_iff_magOf, not_or, not_or]
      exact ⟨hzero, hinf, hone⟩
    rw [extractFields_general hgeneral, ← nexp_toNat, ← nfrac_toNat]
    refine ⟨slice_shift_eq h a, ?_, generalCExp_of_inRange⟩
    rw [slice_hub_eq h, Config.shift, Nat.sub_right_comm]

/-- Settles O20: `XBF` and `ENC` go by the same record. -/
theorem encPacksTheFields : Obligations.EncPacksTheFields := by
  intro s a h
  refine ⟨extractFields s.config a, _, exec_legal h _, rfl, ?_⟩
  rw [exec_legal h, responseWord, responseRecord, encodeValue_eq_ofNat h]

/-- Settles O49: each field, and the code, fits the digits it is rendered in. -/
theorem renderingsReadBackAsFieldsAndCode : Obligations.RenderingsReadBackAsFieldsAndCode := by
  intro c v h
  obtain ⟨hexp, -, hhub, -⟩ := fits_extractFields h v
  obtain ⟨hshort, hlong⟩ := hexWidth_bounds c
  constructor
  · refine ⟨digits 1 (extractFields c v).sign.toNat 1, digits 1 (extractFields c v).cExp c.expBits,
      digits 1 (extractFields c v).cFracHub (c.mantBits + 1), ?_, length_digits _ _ _, length_digits _ _ _,
      length_digits _ _ _, fun ch hch => ?_, readDigits_binary (extractFields c v).sign.isLt, readDigits_binary hexp,
      readDigits_binary hhub⟩
    · simp only [toBinaryChars, List.append_assoc, List.singleton_append]
    · rw [List.mem_append, List.mem_append] at hch
      obtain (hch | hch) | hch := hch
      all_goals exact isBinaryDigit_of_mem_digits hch
  · refine ⟨digits 4 (encodeValue c v).toNat (hexWidth c), rfl, ?_, ?_, fun ch => isHexDigit_of_mem_digits,
      readDigits_digits le_rfl ?_⟩
    · rwa [length_digits]
    · rwa [length_digits]
    · exact (encodeValue_lt h v).trans_le (Nat.pow_le_pow_right (by decide) hlong)

/-- Settles O21: the response word of `RD.D` is its operand (`exec_legal`). -/
theorem rdDAnswersItsOperand : Obligations.RdDAnswersItsOperand :=
  fun _ a h => exec_legal h (.rdD a)

end Sys2Proof.ExtractFormat
end

section
/-! SUPPORT. What each value-based outcome answers: by the class for what the special handler settles, by the
candidate for overflow; and the words that `CVT.W` constructs from (60_exceptions.md R141). -/

namespace Sys2Proof.Machine

open Sys2Proof.Reference

theorem outcomeByClass_eq_overflow_iff {c : Config} {d : Word} {overflows : Bool} :
    outcomeByClass c d overflows = .overflow ↔ classOf c d = .general ∧ overflows = true := by
  unfold outcomeByClass
  cases classOf c d <;> simp

theorem outcomeByClass_eq_underflow_iff {c : Config} {d : Word} {overflows : Bool} :
    outcomeByClass c d overflows = .underflow ↔ classOf c d = .tiny := by
  unfold outcomeByClass
  cases classOf c d <;> cases overflows <;> simp

theorem outcomeByClass_eq_nanInput_iff {c : Config} {d : Word} {overflows : Bool} :
    outcomeByClass c d overflows = .nanInput ↔ classOf c d = .nan := by
  unfold outcomeByClass
  cases classOf c d <;> cases overflows <;> simp

/-- The outcomes of an operation that evaluates the word `d`: it gives each of them its result when it answers what the
special handler settles, and saturates a `GENERAL` word on its overflow condition. -/
theorem exec_of_outcomeByClass {s : State} (h : s.config.Legal) {i : Instr} {d : Word} {overflows : Prop}
    [Decidable overflows] (hrecord : responseRecord s.config i = none)
    (hspecial : ∀ r, special s.config d = (true, r) → responseWord s.config i = r)
    (hover : classOf s.config d = .general → overflows → responseWord s.config i = word (signOf d) infMag)
    (o : ValueOutcome) (ho : outcomeByClass s.config d (decide overflows) = o) :
    (o = .overflow ∨ o = .nanInput → exec i s = .next { s with y := word (signOf d) infMag, bf := none }) ∧
      (o = .underflow → exec i s = .next { s with y := word (signOf d) 0, bf := none }) := by
  subst ho
  rw [outcomeByClass_eq_overflow_iff, outcomeByClass_eq_nanInput_iff, outcomeByClass_eq_underflow_iff, exec_legal h,
    hrecord, decide_eq_true_iff]
  refine ⟨?_, fun htiny => ?_⟩
  · rintro (⟨hgeneral, hcandidate⟩ | hnan)
    · rw [hover hgeneral hcandidate]
    · rw [hspecial _ (special_of_nan h ((classOf_eq_iff h d .nan).1 hnan))]
  · obtain ⟨hpos, hlow⟩ := (classOf_eq_iff h d .tiny).1 htiny
    rw [hspecial _ (special_of_tiny h hpos hlow)]

/-- A word with the sign of `a` and infinity's magnitude. -/
theorem eq_signed_infMag {x a : Word} (hsign : sign x = sign a) (hmag : mag x = mag PINF) :
    x = word (signOf a) infMag := by
  rw [eq_word_of_sign hsign, hmag, mag_PINF_toNat, infMag]

theorem mag_clamp_of_gt {c : Config} {x : Word} (hx : mag x > mag c.maxVal) : mag (clamp c x) = mag PINF := by
  rw [clamp_of_gt ((mag_lt_iff _ _).1 hx), mag_signedInf]

/-- `QNT` saturates on its overflow condition (42_quantize.md R101). -/
theorem quantize_of_snapOverflows {c : Config} (h : c.Legal) {a : Word} (ha : classOf c a = .general)
    (hover : snapOverflows c a) : quantize c a = word (signOf a) infMag := by
  refine eq_signed_infMag (sign_quantize h a) ?_
  rw [quantize_general ha, mag_clamp_of_gt hover]

/-- Construction saturates on its overflow condition: an operand on the grid and a candidate with the forced hub bit are
clamped, an infinite pre-rounded value is answered at once (41_construct.md R80, R83). -/
theorem constructD_of_constructOverflows {c : Config} (h : c.Legal) {a : Word} (ha : classOf c a = .general)
    (hover : constructOverflows c a) : constructD c a = word (signOf a) infMag := by
  refine eq_signed_infMag (sign_constructD h ha) ?_
  obtain ⟨-, hclear, -⟩ := preRound_mod_cell h ha
  rw [constructOverflows, or_hubBit_eq_snap h hclear] at hover
  rw [constructD_general h ha]
  split_ifs at hover ⊢ with hon hinf
  · exact mag_clamp_of_gt hover
  · exact hinf
  · exact mag_clamp_of_gt (hover.resolve_left hinf)

/-- What `CVT.D`, `CVT.S` and `CVT.W` have in common: the outcome is that of the word `d` the operand is converted to. -/
theorem exec_of_constructOutcome {s : State} (h : s.config.Legal) {i : Instr} {d : Word}
    (hrecord : responseRecord s.config i = none) (hword : responseWord s.config i = constructD s.config d)
    (o : ValueOutcome) (ho : outcomeByClass s.config d (decide (constructOverflows s.config d)) = o) :
    (o = .overflow ∨ o = .nanInput → exec i s = .next { s with y := word (signOf d) infMag, bf := none }) ∧
      (o = .underflow → exec i s = .next { s with y := word (signOf d) 0, bf := none }) :=
  exec_of_outcomeByClass h hrecord (fun _ hr => hword.trans (constructD_of_special hr))
    (fun hgeneral hover => hword.trans (constructD_of_constructOverflows h hgeneral hover)) o ho

/-- `I2D` gives the sign of the integer, `+0` for zero (41_construct.md R85). -/
theorem signOf_i2d (i : Int) : signOf (i2d i) = if i < 0 then 1 else 0 := by
  rw [signOf, ← sign_toNat, i2d]
  by_cases hzero : i = 0
  · rw [if_pos hzero, hzero]
    rfl
  · rw [if_neg hzero, sign_ofFields]
    split_ifs <;> rfl

/-- A converted integer is zero, or at least one and finite (41_construct.md R85). -/
theorem magOf_i2d {i : Int} (hi : i.natAbs < 2 ^ 53) :
    magOf (i2d i) = 0 ∨ (oneMag ≤ magOf (i2d i) ∧ magOf (i2d i) < infMag) := by
  rw [i2d]
  by_cases hzero : i = 0
  · rw [if_pos hzero]
    exact .inl rfl
  · obtain ⟨-, -, hk, hfrac, -⟩ := log2_frac (Int.natAbs_ne_zero.2 hzero) rfl hi
    have hexp : 1023 + highestBit i.natAbs < 2 ^ 11 := by omega
    rw [if_neg hzero, magOf, ← mag_toNat, mag_ofFields_toNat, BitVec.toNat_ofNat, BitVec.toNat_ofNat,
      Nat.mod_eq_of_lt hfrac, Nat.mod_eq_of_lt hexp, oneMag, infMag]
    generalize (i.natAbs - 2 ^ highestBit i.natAbs) <<< (52 - highestBit i.natAbs) = frac at hfrac
    omega

/-- A converted integer is neither a NaN nor too small for the format: `lowestVal` is below one. -/
theorem classOf_i2d {c : Config} (h : c.Legal) {i : Int} (hi : i.natAbs < 2 ^ 53) :
    classOf c (i2d i) ≠ .nan ∧ classOf c (i2d i) ≠ .tiny := by
  obtain ⟨-, hlow, hinf⟩ := landmarks_ordered h
  have hmag := magOf_i2d hi
  rw [Ne, Ne, classOf_eq_iff h, classOf_eq_iff h, classMagnitudes, classMagnitudes]
  omega

/-- `DEC` answers with the sign bit of the code, reserved or not (41_construct.md R86). -/
theorem sign_decodeCode (c : Config) (u : Nat) : sign (decodeCode c u) = codeSign c u := by
  obtain ⟨-, -, hdec⟩ | ⟨-, -, hdec⟩ | ⟨-, -, hdec⟩ | ⟨-, hdec⟩ := decodeCode_cases c u
  · rw [hdec, sign_signedZero]
  · rw [hdec, sign_signedOne]
  · rw [hdec, sign_signedInf]
  · rw [hdec, Config.sign_gdec]

end Sys2Proof.Machine
end

section
/-! The obligations of 60_exceptions.md: every request is answered, and the results of the value-based outcomes. -/

namespace Sys2Proof.Exceptions

open Sys2Proof.Machine Sys2Proof.Reference

/-- Settles O8: in a legal configuration the step answers at the response ports (`step_legal`), with a record exactly for
`XBF` (`responseRecord_eq_some`). -/
theorem everyRequestIsAnswered : Obligations.EveryRequestIsAnswered := by
  intro s h
  refine ⟨_, step_legal h, rfl, rfl, ?_⟩
  simp only [Option.isSome_iff_exists, responseRecord_eq_some]
  exact ⟨fun ⟨_, a, hi, _⟩ => ⟨a, hi⟩, fun ⟨a, hi⟩ => ⟨_, a, hi, rfl⟩⟩

/-- Settles O28: the special handler answers NaN and underflow, the clamp or an infinite pre-rounded value answers
overflow; a converted integer is in neither of the handler's two classes, and a reserved code decodes to a special
value. -/
theorem valueOutcomesGiveTheirResults : Obligations.ValueOutcomesGiveTheirResults := by
  intro s a h
  refine ⟨?_, exec_of_constructOutcome h rfl rfl, ?_, ?_, fun hreserved => ?_⟩
  · exact exec_of_outcomeByClass h rfl (fun _ => quantize_of_special) (quantize_of_snapOverflows h)
  · rw [← signOf_widen_operand32]
    exact exec_of_constructOutcome h rfl rfl
  · intro o ho
    obtain ⟨hnan, htiny⟩ := classOf_i2d h (natAbs_operandInt_lt h a)
    obtain ⟨hsaturates, -⟩ := exec_of_constructOutcome (i := .cvtW a) h rfl rfl o ho
    rw [← operandInt_eq_twosComplement h, ← signOf_i2d]
    refine ⟨?_, ?_, fun hover => hsaturates (.inl hover)⟩
    · rw [← ho, Ne, valueOutcome, outcomeByClass_eq_nanInput_iff]
      exact hnan
    · rw [← ho, Ne, valueOutcome, outcomeByClass_eq_underflow_iff]
      exact htiny
  · have hcode : isReservedCode s.config (operandCode s.config a) := by
      by_contra hne
      rw [valueOutcome, if_neg hne] at hreserved
      exact ValueOutcome.noConfusion hreserved
    obtain ⟨hsign, -, -⟩ := fields_operandCode s.config a
    refine ⟨_, exec_legal h _, decodeCode_isSpecial hcode, ?_⟩
    rw [signOf, ← sign_toNat, responseWord, sign_decodeCode, hsign]

end Sys2Proof.Exceptions
end

section
/-! SUPPORT. The grid points of the hazards: the one below `lowestVal`, the one in the cell of one, and those above
`maxVal` (70_reset_and_hazards.md R152 to R154). -/

namespace Sys2Proof.Machine

open Sys2Proof.Reference

/-- An operation that answers the word and the record that stand at the ports changes nothing. -/
theorem exec_keeps_answer {s t : State} {i j : Instr} (hexec : exec i s = .next t)
    (hword : responseWord s.config j = t.y) (hrecord : responseRecord s.config j = responseRecord s.config i) :
    exec j t = .next t := by
  rw [exec_after_exec hexec, hword, hrecord]
  obtain ⟨-, rfl⟩ := exec_next hexec
  rfl

/-- The grid point that the code of zero would have is the first of its binade, `lowestVal` the second. -/
theorem gdec_zero_lt_lowestVal {c : Config} (h : c.Legal) (g : BitVec 1) :
    0 < (mag (c.gdec g 0 0)).toNat ∧ (mag (c.gdec g 0 0)).toNat < (mag c.lowestVal).toNat := by
  have hhub := Config.hubBit_pos h
  have hcell := Nat.two_pow_pos c.shift
  rw [Config.mag_gdec h g (Nat.two_pow_pos _) (Nat.two_pow_pos _), Config.mag_lowestVal h]
  omega

/-- `QNT` flushes that grid point (40_special_cases.md R73). -/
theorem quantize_gdec_zero {c : Config} (h : c.Legal) (g : BitVec 1) : quantize c (c.gdec g 0 0) = word g.toNat 0 := by
  obtain ⟨hpos, hlow⟩ := gdec_zero_lt_lowestVal h g
  rw [mag_lowestVal_eq_lowMag h] at hlow
  rw [mag_toNat, ← magOf] at hpos hlow
  rw [quantize_of_special (special_of_tiny h hpos hlow), signOf, ← sign_toNat, Config.sign_gdec]

/-- The word of R153 is that grid point. -/
theorem gdec_zero_eq_word {c : Config} (h : c.Legal) (hp : c.preRound = .binary32) (a : Word) :
    c.gdec (sign a) 0 0 = word (signOf a) 0x37F0000010000000 := by
  obtain ⟨-, hbias, hhub⟩ := binary32_constants h hp
  rw [eq_word_of_sign (Config.sign_gdec c (sign a) 0 0),
    Config.mag_gdec h _ (Nat.two_pow_pos _) (Nat.two_pow_pos _), hbias, hhub]
  norm_num

/-- Its code is that of zero, with the sign in the top bit (30_encoding.md R53). -/
theorem encodeValue_gdec_zero {c : Config} (h : c.Legal) (g : BitVec 1) :
    encodeValue c (c.gdec g 0 0) = BitVec.ofNat 64 (g.toNat * 2 ^ (c.expBits + c.mantBits)) := by
  obtain ⟨hexp, hfrac⟩ := extractFields_gdec h g (Nat.two_pow_pos c.expBits) (Nat.two_pow_pos c.mantBits)
  obtain ⟨hsign, -, -⟩ := extractFields_native c (c.gdec g 0 0)
  rw [encodeValue_eq_ofNat h, hsign, Config.sign_gdec, hexp, hfrac, Nat.add_zero, Nat.add_zero, Nat.mul_assoc,
    ← Nat.pow_add]

/-- The operands of R153 lie below the half of the lowest coarse spacing, `2^31`, or at it, and round down to the start of
the binade (41_construct.md R81). -/
theorem preRoundMag_of_roundsBelowLowestVal {c : Config} {a : Word} (ha : roundsBelowLowestVal c a) :
    preRoundMag c (magOf a) = 895 * 2 ^ 52 := by
  obtain ⟨hp, hexp, -, hhigh⟩ := ha
  have hfields := magOf_eq_fields a
  have hdown : nearestEven (magOf a) 31 = 895 * 2 ^ 52 := by
    rw [nearestEven]
    split_ifs <;> omega
  rw [preRoundMag_binary32 hp, magOf_div_binade, hexp, show droppedBits 895 = 31 from rfl, hdown, if_neg (by decide)]

/-- Construction of an operand of R153: it is off the grid, and the hub bit is forced at the start of the binade. -/
theorem constructD_of_roundsBelowLowestVal {c : Config} (h : c.Legal) {a : Word} (ha : roundsBelowLowestVal c a) :
    constructD c a = word (signOf a) 0x37F0000010000000 := by
  have hround := preRoundMag_of_roundsBelowLowestVal ha
  obtain ⟨hp, hexp, hlow, hhigh⟩ := ha
  obtain ⟨hshift, hbias, hhub⟩ := binary32_constants h hp
  obtain ⟨honeMax, -⟩ := oneMag_lt_maxMag h
  have hfields := magOf_eq_fields a
  have hgeneral : classMagnitudes c .general (magOf a) := by
    rw [classMagnitudes, lowMag_eq h, hbias, hshift, hhub, infMag, oneMag]
    omega
  rw [oneMag] at honeMax
  rw [constructD_eq_word h, constructMag_of_general h hgeneral, hround, hshift, hhub, if_neg (by omega),
    if_neg (by decide), clampMag, if_neg (by omega)]
  norm_num

/-- The grid point in the cell of one is in range: `maxVal` is not below that cell (10_state.md R22). -/
theorem unityAlias_inRange {c : Config} (h : c.Legal) (g : BitVec 1) : inRange c (unityAlias c g) := by
  obtain ⟨hmaxExp, hmaxFrac⟩ := maxVal_fields_lt h
  have hmaxOne : 2 ^ (c.expBits - 1) ≤ c.maxvalExpField := by
    obtain ⟨-, -, ⟨hge, -⟩, -⟩ := h
    exact hge
  have hone := Nat.two_pow_pos (c.expBits - 1)
  rw [unityAlias_eq_gdec h, inRange, mag_le_iff, mag_le_iff, Config.lowestVal, Config.maxVal,
    gdec_mag_le_iff h (Nat.two_pow_pos _) h.one_lt_pow_mant (unityExp_lt h) (Nat.two_pow_pos _),
    gdec_mag_le_iff h (unityExp_lt h) (Nat.two_pow_pos _) hmaxExp hmaxFrac]
  omega

theorem unityAlias_isHubValue {c : Config} (h : c.Legal) (g : BitVec 1) : isHubValue c (unityAlias c g) := by
  have hrange := unityAlias_inRange h g
  rw [unityAlias_eq_gdec h] at hrange ⊢
  exact gdec_isHubValue h g (unityExp_lt h) (Nat.two_pow_pos _) hrange

/-- One is at the edge of its cell, so it is off the grid. -/
theorem signedOne_ne_unityAlias {c : Config} (h : c.Legal) (g : BitVec 1) : signedOne g ≠ unityAlias c g := by
  rw [unityAlias_eq_gdec h]
  intro heq
  exact gdec_not_isSpecial h g (unityExp_lt h) (Nat.two_pow_pos _) (heq ▸ .inr (.inr (mag_signedOne g)))

/-- The reserved code of one is also the general code of its cell (30_encoding.md R53). -/
theorem encodeValue_signedOne {c : Config} (h : c.Legal) (g : BitVec 1) :
    encodeValue c (signedOne g) = encodeValue c (unityAlias c g) := by
  apply BitVec.eq_of_toNat_eq
  rw [unityAlias_eq_gdec h, encodeValue_gdec h g (unityExp_lt h) (Nat.two_pow_pos _), encodeValue_toNat h,
    extractFields_one (mag_signedOne g), sign_signedOne]

/-- The snap of every word of the cell that starts at one is that cell's grid point (42_quantize.md R100). -/
theorem snap_in_cell_of_one {c : Config} (h : c.Legal) {a : Word} (hlow : oneMag ≤ magOf a)
    (hhigh : magOf a < oneMag + 2 ^ c.shift) : snap c a = unityAlias c (sign a) := by
  have hone : oneMag = 1023 * 2 ^ c.mantBits * 2 ^ c.shift := by rw [Nat.mul_assoc, h.pow_mant_shift, oneMag]
  have hcell : magOf a / 2 ^ c.shift = 1023 * 2 ^ c.mantBits :=
    Nat.div_eq_of_lt_le (hone ▸ hlow) (by rwa [Nat.succ_mul, ← hone])
  have hbias : 2 ^ (c.expBits - 1) + c.biasDiff = 1023 := (Nat.add_comm _ _).trans h.biasDiff_eq
  rw [unityAlias_eq_gdec h]
  refine word_ext ((sign_snap h a).trans (Config.sign_gdec c _ _ _).symm) (BitVec.eq_of_toNat_eq ?_)
  rw [mag_snap_eq_midMag h, midMag_eq h, hcell, ← hone, Config.mag_gdec h _ (unityExp_lt h) (Nat.two_pow_pos _), hbias,
    Nat.zero_mul, Nat.zero_add, oneMag]

/-- `QNT` of every word strictly inside that cell is its grid point, which is not above `maxVal`. -/
theorem quantize_in_cell_of_one {c : Config} (h : c.Legal) {a : Word} (hlow : oneMag < magOf a)
    (hhigh : magOf a < oneMag + 2 ^ c.shift) : quantize c a = unityAlias c (sign a) := by
  obtain ⟨-, hlowest, -⟩ := landmarks_ordered h
  have hwidth : 2 ^ c.shift ≤ 2 ^ 52 := Nat.pow_le_pow_right (by decide) (Nat.sub_le 52 c.mantBits)
  have hgeneral : classOf c a = .general := by
    rw [classOf_eq_iff h, classMagnitudes]
    refine ⟨by omega, ?_, by omega⟩
    rw [oneMag] at hhigh
    rw [infMag]
    omega
  obtain ⟨-, hmax⟩ := unityAlias_inRange h (sign a)
  rw [quantize_general hgeneral, snap_in_cell_of_one h hlow.le hhigh, clamp_of_le ((mag_le_iff _ _).1 hmax)]

/-- `QNT` saturates a grid point above `maxVal`: it is its own snap (42_quantize.md R101). -/
theorem quantize_of_isGridPoint_above_maxVal {c : Config} (h : c.Legal) {v : Word} (hgrid : isGridPoint c v)
    (hmax : mag c.maxVal < mag v) : quantize c v = word (signOf v) infMag := by
  obtain ⟨-, hnormal, hon⟩ := hgrid
  have hfields := mag_toNat_fields v
  have hfrac := (nfrac v).isLt
  have hlow := (mag_le_iff _ _).1 (lowestVal_le_maxVal h)
  obtain ⟨hone, -⟩ := Config.one_lt_maxVal h
  have hover : snapOverflows c v := by rwa [snapOverflows, snap_of_onGrid h hon]
  rw [mag_lt_iff] at hmax
  exact quantize_of_snapOverflows h ((classOf_general_iff c v h).2 ⟨by omega, by omega, by omega⟩) hover

/-- Under the default reading of `maxVal` (10_state.md R22) every general decoding with the exponent field all-ones is
above it. -/
theorem maxVal_lt_gdec_allOnes {c : Config} (h : c.Legal) (hmaxExp : c.maxvalExpField = 2 ^ c.expBits - 2) (g : BitVec 1)
    {f : Nat} (hf : f < 2 ^ c.mantBits) : mag c.maxVal < mag (c.gdec g (2 ^ c.expBits - 1) f) := by
  obtain ⟨hexp, hfrac⟩ := maxVal_fields_lt h
  have hle := gdec_mag_le_iff (s := g) (t := 0) h (Nat.sub_one_lt (Nat.two_pow_pos _).ne') hf hexp hfrac
  have hwidth := h.pow_exp
  have hpos := Nat.two_pow_pos (c.expBits - 1)
  rw [← Config.maxVal] at hle
  rw [mag_lt_iff, ← not_le, hle]
  omega

end Sys2Proof.Machine
end

section
/-! The obligations of 70_reset_and_hazards.md: the constructed value below `lowestVal`, the code that one shares, the
stray all-ones codes, and the two compositions of construction and quantization. -/

namespace Sys2Proof.ResetAndHazards

open Sys2Proof.Machine Sys2Proof.Reference

/-- Settles O34: the operand rounds down to the start of its binade, and the word with the hub bit forced there is the
grid point `GDEC(s, 0, 0)`, whose fields are those of zero's code. -/
theorem constructionCanFallBelowLowestVal : Obligations.ConstructionCanFallBelowLowestVal := by
  intro s a h hp hexp hlow hhigh
  dsimp only
  have hcons := constructD_of_roundsBelowLowestVal h ⟨hp, hexp, hlow, hhigh⟩
  obtain ⟨hexpBits, hmantBits⟩ : s.config.expBits = 8 ∧ s.config.mantBits = 23 := by
    obtain ⟨-, -, -, -, hwidths, -⟩ := h
    exact hwidths hp
  have hsign : (sign a).toNat = signOf a := sign_toNat a
  have henc : encodeValue s.config (s.config.gdec (sign a) 0 0) = BitVec.ofNat 64 (signOf a * 2 ^ 31) := by
    rw [encodeValue_gdec_zero h, hsign, hexpBits, hmantBits]
  rw [← gdec_zero_eq_word h hp a] at hcons ⊢
  obtain ⟨-, -, hon⟩ := gdec_isGridPoint h (sign a) (Nat.two_pow_pos _) (Nat.two_pow_pos _)
  obtain ⟨-, hbelow⟩ := gdec_zero_lt_lowestVal h (sign a)
  refine ⟨?_, hon, (mag_lt_iff _ _).2 hbelow, ?_, exec_legal h _, ?_⟩
  · rw [exec_legal h, responseWord, hcons]
    rfl
  · rw [exec_legal h, responseWord, henc]
    rfl
  · rw [exec_legal h, responseWord, quantize_gdec_zero h, hsign]
    rfl

/-- Settles O37: `unityAlias` is the general decoding of one's code, and the midpoint of the cell that starts at one. -/
theorem unitySharesItsCode : Obligations.UnitySharesItsCode := by
  intro s g h
  refine ⟨.inl (.inr (.inr (mag_signedOne g))), unityAlias_isHubValue h g, signedOne_ne_unityAlias h g, ?_, ?_⟩
  · rw [exec_legal h, exec_legal h, responseWord, responseWord, encodeValue_signedOne h, responseRecord, responseRecord]
  · rintro a rfl hlow hhigh
    rw [exec_legal h, responseWord, quantize_in_cell_of_one h hlow hhigh]
    rfl

/-- Settles O38: a stray code is not reserved, so it decodes to the general decoding of its fields, whose exponent is
above that of `maxVal`; it comes back from `ENC` as every code does (`everyCodeRoundTrips`). -/
theorem strayAllOnesCodesDecodeAboveMaxVal : Obligations.StrayAllOnesCodesDecodeAboveMaxVal := by
  intro s t a hmaxExp _ hcode hexp hfrac hdec
  obtain ⟨h, ht⟩ := exec_next hdec
  obtain ⟨hs, he, hf⟩ := fields_operandCode s.config a
  rw [← he] at hexp
  rw [← hf] at hfrac
  have hstray : ¬ isReservedCode s.config (operandCode s.config a) := (isReservedCode_allOnes_iff h hexp).not.2 hfrac
  have hy : t.y = s.config.gdec (codeSign s.config (operandCode s.config a)) (2 ^ s.config.expBits - 1)
      (codeFrac s.config (operandCode s.config a)) := by
    rw [ht, responseWord, decodeCode_of_not_reserved hstray, hexp]
  have hfracLt := codeFrac_lt s.config (operandCode s.config a)
  have hexpLt : 2 ^ s.config.expBits - 1 < 2 ^ s.config.expBits := Nat.sub_one_lt (Nat.two_pow_pos _).ne'
  have hgrid : isGridPoint s.config t.y := by rw [hy]; exact gdec_isGridPoint h _ hexpLt hfracLt
  have hmax : mag s.config.maxVal < mag t.y := by rw [hy]; exact maxVal_lt_gdec_allOnes h hmaxExp _ hfracLt
  have hsign : signOf t.y = codeS s.config a := by rw [signOf, ← sign_toNat, hy, Config.sign_gdec, hs]
  refine ⟨hgrid, hmax, ?_, ExtractFormat.everyCodeRoundTrips s t a hcode hdec, exec_keeps_answer hdec rfl rfl, ?_⟩
  · rintro (hspecial | ⟨-, -, hle⟩)
    · exact gdec_not_isSpecial h _ hexpLt hfracLt (hy ▸ hspecial)
    · exact BitVec.not_lt.2 hle hmax
  · rw [exec_after_exec hdec, responseWord, quantize_of_isGridPoint_above_maxVal h hgrid hmax, hsign]
    rfl

/-- Settles O41: a `QNT` response is a hub value, which construction keeps; a word just above the middle of its cell is
rounded up by construction and truncated by `QNT`. -/
theorem constructionKeepsQuantizedValues : Obligations.ConstructionKeepsQuantizedValues := by
  constructor
  · intro s t a hexec
    obtain ⟨h, ht⟩ := exec_next hexec
    have hy : t.y = quantize s.config a := by rw [ht, responseWord]
    refine exec_keeps_answer hexec ?_ rfl
    rw [responseWord, hy]
    exact constructD_of_isHubValue h (quantize_isHubValue h a)
  · have h : State.reset.config.Legal := Config.build823_legal
    have hqnt : quantize State.reset.config 0x4000000010000001 = 0x4000000010000000 := by decide
    have hcvt : constructD State.reset.config 0x4000000010000001 = 0x4000000030000000 := by decide
    have hback : quantize State.reset.config 0x4000000030000000 = 0x4000000030000000 := by decide
    have hconstruct := exec_legal h (.cvtD 0x4000000010000001)
    refine ⟨0x4000000010000001, _, _, _, exec_legal h _, hconstruct, exec_after_exec hconstruct _, ?_⟩
    simp only [responseWord, hqnt, hcvt, hback]
    decide

end Sys2Proof.ResetAndHazards
end
